-- ==== Sys2Proof/Word.lean ====
section
/-! DEFINITION. The word type of the machine: a byte of a stream (00_scope.md R6).

Every other quantity of this hardware is an unsigned natural number (R4, R5, R82), so there is no other word type. -/

namespace Sys2Proof

/-- One byte of a stream, a value in 0..255 (R6). -/
abbrev Byte := BitVec 8

end Sys2Proof
end

