-- ==== Sys2Proof/Config.lean ====
section
/-! DEFINITION. The parameters of the block (00_scope.md R3).

They are arguments of the model: every definition that depends on one takes a `Params`. The spec leaves no output open
(41_codec_ops.md R81), so there is no free value. -/

namespace Sys2Proof

/-- `BIT_ORDER` (R3, 20_memory.md R33 to R36): how stream bit positions map onto the bits of bytes, and which value
bit goes first. -/
inductive BitOrder where
  /-- This hardware (R3, R33, R35). -/
  | lsbFirst
  /-- The alternative reading of the prose, fully specified (R36). -/
  | msbFirst
deriving DecidableEq, Repr

/-- The parameters of R3. `WW` is 6 and fixed by the command header (30_encoding.md R51); `LATENCY` is left out: no rule
depends on it, and a model should not represent time (70_reset_and_hazards.md R155; log 15). -/
structure Params where
  /-- `BIT_ORDER`. -/
  bitOrder : BitOrder
  /-- `MAX_W`, the largest field width the datapath accepts, in bits; 32 on this hardware. -/
  maxW : Nat
  /-- `STREAM_CAP`, the largest stream the ports carry, in bytes; OPEN. -/
  streamCap : Nat
  /-- `OFFW`, the width of the `offset` port; OPEN, derived. -/
  offW : Nat
  /-- `LENW`, the width of the `len` port; OPEN, derived. -/
  lenW : Nat
  /-- `MIN_RECORD_BYTES`, the encoded length of a MIN record; 10 on this hardware. -/
  minRecordBytes : Nat
deriving DecidableEq, Repr

/-- The constraints R3 puts on the parameters. DEDUCED (log 16): a MIN record has 72 used bits (30_encoding.md R66), so it
has at least 9 bytes, and the longest record fits the ports. -/
abbrev Params.legal (P : Params) : Prop :=
  23 ≤ P.maxW ∧ 10 ≤ P.streamCap ∧ 8 * P.streamCap < 2 ^ P.offW ∧ P.streamCap < 2 ^ P.lenW ∧
    9 ≤ P.minRecordBytes ∧ P.minRecordBytes ≤ P.streamCap

/-- The values R3 gives for this hardware; `STREAM_CAP`, `OFFW` and `LENW` stay open. -/
abbrev Params.isBfc (P : Params) : Prop :=
  P.bitOrder = .lsbFirst ∧ P.maxW = 32 ∧ P.minRecordBytes = 10

namespace Config

/-- This hardware (R3), for one choice of the OPEN parameters. -/
def bfc (streamCap offW lenW : Nat) : Params :=
  { bitOrder := .lsbFirst, maxW := 32, streamCap := streamCap, offW := offW, lenW := lenW, minRecordBytes := 10 }

/-- DESIGN CHOICE (log 2): the OPEN parameters of the machine after reset, the size the vectors of 95_test_vectors.md
were run with (`STREAM_CAP` = 64, `LENW` = 7). -/
def bfc64 : Params := bfc 64 10 7

end Config
end Sys2Proof
end

