-- ==== Sys2Proof/Syntax.lean ====
section
/-! DEFINITION. The instructions: one constructor per row of spec/opcode_table.json, and the words they come in.

Operands are natural numbers, as the spec's are (00_scope.md R4, R5); what a port or a record field can carry is checked
in WellFormed.lean. A field the spec says is ignored (30_encoding.md R58) is no operand (log 17). -/

namespace Sys2Proof

/-- The four record kinds, a closed set (30_encoding.md R61, 42_record_layouts.md R97). -/
inductive Kind where
  | load
  | write
  | min
  | read
deriving DecidableEq, Repr

/-- The instructions of spec/opcode_table.json. -/
inductive Instr where
  /-- `NOP` (41_codec_ops.md R75). -/
  | nop
  /-- `PACK` of the value `v` into the field of width `w` at bit offset `o` (R76). -/
  | pack (w o v : Nat)
  /-- `UNPACK` of the field of width `w` at bit offset `o` (R77). -/
  | unpack (w o : Nat)
  /-- The reserved selector `0b11` (60_exceptions.md R123). -/
  | reservedOp3
  /-- `LOAD` record: `b` is the constant, `c` the destination address (30_encoding.md R62). -/
  | load (b c : Nat)
  /-- `WRITE` record: `b` is the source address, `c` the address of the pointer (R63). -/
  | write (b c : Nat)
  /-- `MIN` record: `b` and `c` are operand addresses, `d` the result address (R64). -/
  | min (b c d : Nat)
  /-- `READ` record: `b` is the offset, `c` the base address, `d` the destination address (R65). -/
  | read (b c d : Nat)
deriving DecidableEq, Repr

/-- One command bundle as R51 lists it: the header CMDH, the offset word and the value word. The stream and its length
are the host's (10_state.md R21, R32). -/
structure Bundle where
  /-- CMDH = (w << 2) | op. -/
  cmdh : BitVec 8
  /-- The `offset` port. -/
  offset : Nat
  /-- The `value_in` port. -/
  value : Nat
deriving DecidableEq, Repr

/-- The words an instruction comes in: a command bundle (R51) or the bytes of a record (R60 to R69). -/
inductive Words where
  | command (b : Bundle)
  | record (bytes : List Byte)
deriving DecidableEq, Repr

end Sys2Proof
end

