-- ==== Sys2Proof/Machine/Errors.lean ====
section
/-! DEFINITION. The errors of the codec and of the record layer (60_exceptions.md R122, R132 to R135), with their codes. -/

namespace Sys2Proof

/-- What the `cause` output says (R122). Codes 5 to 7 are never driven, so the output is an enumeration (R127). -/
inductive Cause where
  /-- No error. -/
  | none
  /-- `L > STREAM_CAP` or `o + w > 8L` (R125). -/
  | bounds
  /-- `v >= 2^w` (R126). -/
  | value
  /-- `w > MAX_W` (R124). -/
  | width
  /-- `op = 0b11` (R123). -/
  | illegalOp
deriving DecidableEq, Repr

/-- The code on `cause[2:0]` (R122). -/
def Cause.code : Cause → BitVec 3
  | .none => 0
  | .bounds => 1
  | .value => 2
  | .width => 3
  | .illegalOp => 4

/-- The errors of the host's record procedures, with the data each records (R132 to R135). -/
inductive RecordError where
  /-- R132: the kind, the operand count given and the count expected. -/
  | operandCountMismatch (kind : Kind) (given expected : Nat)
  /-- R133: the kind, the 1-based operand index, the value and the field's width. -/
  | operandRange (kind : Kind) (operand value width : Nat)
  /-- R134: the byte offset and the tag. -/
  | unknownOpcodeTag (p tag : Nat)
  /-- R135: the byte offset, the tag, the bytes needed and the bytes available. -/
  | truncatedProgram (p tag needed available : Nat)
deriving DecidableEq, Repr

/-- The record code of an error (R132 to R135). -/
def RecordError.code : RecordError → Nat
  | .operandCountMismatch _ _ _ => 1
  | .operandRange _ _ _ _ => 2
  | .unknownOpcodeTag _ _ => 3
  | .truncatedProgram _ _ _ _ => 4

end Sys2Proof
end

