-- ==== Sys2Proof/Machine/Flags.lean ====
section
/-! DEFINITION. The only flags of the block, `err` and `cause` (10_state.md R28, 41_codec_ops.md R83), and the checks that
set them (60_exceptions.md R128). -/

namespace Sys2Proof

/-- WIDTH: `w > MAX_W` (R124). -/
def widthError (P : Params) (w : Nat) : Bool := decide (P.maxW < w)

/-- BOUNDS: `L > STREAM_CAP` or `o + w > 8L`, computed exactly (R125, 41_codec_ops.md R82). -/
def boundsError (P : Params) (w o L : Nat) : Bool := decide (P.streamCap < L) || decide (8 * L < o + w)

/-- VALUE: `v >= 2^w` (R126). -/
def valueError (w v : Nat) : Bool := decide (2 ^ w ≤ v)

/-- `Check(op, w, o, v, L)` (R128): the first check that holds is the error reported. NOP runs none (R75). -/
def check (P : Params) (op w o v L : Nat) : Cause :=
  if op = 0 then .none
  else if op = 3 then .illegalOp
  else if widthError P w then .width
  else if boundsError P w o L then .bounds
  else if op = 1 ∧ valueError w v then .value
  else .none

/-- `err` is 1 exactly when `cause` is not NONE (10_state.md R24, R25). -/
def errOf (c : Cause) : Bool := decide (c ≠ .none)

end Sys2Proof
end

