-- ==== Sys2Proof/Machine/Memory.lean ====
section
/-! DEFINITION. A stream's bytes as sparse data in one canonical form, with the two byte primitives of 00_scope.md R6.

An address that is not listed reads as 0x00: the value the spec gives a fresh record buffer (42_record_layouts.md R97),
and for a stream the host has not presented a DESIGN CHOICE (log 4). -/

namespace Sys2Proof

/-- Bytes by address. Canonical form: addresses strictly rising, no byte 0x00 listed (`Memory.wf`). -/
abbrev Memory := List Host.Cell

namespace Memory

/-- The byte an unlisted address reads as (R97; log 4). -/
def unlisted : Byte := 0#8

/-- `MemRead(S, i, 1)` of R6. -/
def read : Memory → Nat → Byte
  | [], _ => unlisted
  | (a', b') :: m, a => if a' = a then b' else read m a

/-- Take every entry of address `a` out. -/
def erase : Memory → Nat → Memory
  | [], _ => []
  | (a', b') :: m, a => if a' = a then erase m a else (a', b') :: erase m a

/-- Put an entry before the first one of a higher address. -/
def insert : Memory → Nat → Byte → Memory
  | [], a, b => [(a, b)]
  | (a', b') :: m, a, b => if a < a' then (a, b) :: (a', b') :: m else (a', b') :: insert m a b

/-- `MemWrite(S, i, 1, b)` of R6: the byte at `a` becomes `b`, every other byte stays. Writing what an unlisted address
reads as removes the entry, which keeps the canonical form. -/
def write (m : Memory) (a : Nat) (b : Byte) : Memory :=
  if b = unlisted then m.erase a else (m.erase a).insert a b

/-- Addresses are at least `lo`, strictly rising, and no listed byte is the unlisted one. -/
def wfFrom : Nat → Memory → Bool
  | _, [] => true
  | lo, (a, b) :: m => decide (lo ≤ a) && decide (b ≠ unlisted) && wfFrom (a + 1) m

/-- The canonical form. -/
def wf (m : Memory) : Bool := wfFrom 0 m

/-- The bytes `bytes` from address `a` on, as a memory. -/
def ofBytesFrom : Nat → List Byte → Memory
  | _, [] => []
  | a, b :: bytes => if b = unlisted then ofBytesFrom (a + 1) bytes else (a, b) :: ofBytesFrom (a + 1) bytes

/-- A sequence of bytes as a memory: byte `i` at address `i` (10_state.md R21). -/
def ofBytes (bytes : List Byte) : Memory := ofBytesFrom 0 bytes

/-- The first `n` bytes, index 0 first (00_scope.md R8). -/
def toBytes (m : Memory) (n : Nat) : List Byte := (List.range n).map m.read

end Memory
end Sys2Proof
end

