-- ==== Sys2Proof/Machine/Codec.lean ====
section
/-! DEFINITION. Stream bits and bit-fields: the primitives of 20_memory.md R33 to R38 and the two loops of
41_codec_ops.md R76 and R77. -/

namespace Sys2Proof

/-- Which bit of its byte stream bit `k` is (R33; R36 for the alternative order). -/
def bitIndex (order : BitOrder) (k : Nat) : Nat :=
  match order with
  | .lsbFirst => k % 8
  | .msbFirst => 7 - k % 8

/-- `StreamBit(S, k)` (R33, R36): a bit of byte `k div 8`. -/
def streamBit (order : BitOrder) (S : Memory) (k : Nat) : Bool :=
  (S.read (k / 8)).getLsbD (bitIndex order k)

/-- The byte `b` with bit `i` made `x`, by the formula of R34. -/
def setByteBit (b : Byte) (i : Nat) (x : Bool) : Byte :=
  (b &&& ~~~(1#8 <<< i)) ||| ((BitVec.ofBool x).setWidth 8 <<< i)

/-- `SetStreamBit(S, k, x)` (R34, R36). -/
def setStreamBit (order : BitOrder) (S : Memory) (k : Nat) (x : Bool) : Memory :=
  S.write (k / 8) (setByteBit (S.read (k / 8)) (bitIndex order k) x)

/-- Which bit of a `w`-bit value sits at stream bit `o + j` of its field (R35; R36 for the alternative order). -/
def valueIndex (order : BitOrder) (w j : Nat) : Nat :=
  match order with
  | .lsbFirst => j
  | .msbFirst => w - 1 - j

/-- The first `n` turns of PACK's loop (R76). -/
def packLoop (order : BitOrder) (S : Memory) (o w v : Nat) : Nat → Memory
  | 0 => S
  | n + 1 => setStreamBit order (packLoop order S o w v n) (o + n) (v.testBit (valueIndex order w n))

/-- The stream PACK leaves: the field `[o, o+w)` holds `v` (R76). -/
def packBits (order : BitOrder) (S : Memory) (o w v : Nat) : Memory := packLoop order S o w v w

/-- The first `n` turns of UNPACK's loop (R77). -/
def unpackLoop (order : BitOrder) (S : Memory) (o w : Nat) : Nat → Nat
  | 0 => 0
  | n + 1 => unpackLoop order S o w n + (streamBit order S (o + n)).toNat * 2 ^ valueIndex order w n

/-- The value the field `[o, o+w)` holds (R77). -/
def unpackBits (order : BitOrder) (S : Memory) (o w : Nat) : Nat := unpackLoop order S o w w

/-- `N(S)` of R37: the first `L` bytes as one little-endian number. -/
def leInt (S : Memory) : Nat → Nat
  | 0 => 0
  | n + 1 => leInt S n + (S.read n).toNat * 2 ^ (8 * n)

/-- `B(S)` of R38: the first `L` bytes as one big-endian number; one more byte shifts the earlier ones up by 8. -/
def beInt (S : Memory) : Nat → Nat
  | 0 => 0
  | n + 1 => beInt S n * 2 ^ 8 + (S.read n).toNat

/-- `v[hi:lo]` of 00_scope.md R4, given by its low bit and its number of bits. -/
def slice (v lo bits : Nat) : Nat := (v >>> lo) % 2 ^ bits

end Sys2Proof
end

