-- ==== Sys2Proof/Machine/Operands.lean ====
section
/-! DEFINITION. How a command's operands are taken from its bundle (30_encoding.md R51, R54 to R57) and a record's
operands from an instruction (R70).

Every operand is the unsigned value of its field: nothing is scaled, biased, truncated or sign-extended (R54 to R56). -/

namespace Sys2Proof

/-- OP = CMDH[1:0] (R51, R52). -/
def Bundle.op (b : Bundle) : Nat := b.cmdh.toNat % 4

/-- `w = zext(CMDH[7:2])`, a count of bits (R54). -/
def Bundle.w (b : Bundle) : Nat := b.cmdh.toNat / 4

/-- `o = zext(offset)`, a stream bit position (R55). -/
def Bundle.o (b : Bundle) : Nat := b.offset

/-- `v = zext(value_in)`, not truncated to `w` bits (R56). -/
def Bundle.v (b : Bundle) : Nat := b.value

/-- The kind and the operand list, without the tag, of a record instruction (42_record_layouts.md R97, R98 to R101); a
command is no record. -/
def Instr.recordOps : Instr → Option (Kind × List Nat)
  | .nop => none
  | .pack _ _ _ => none
  | .unpack _ _ => none
  | .reservedOp3 => none
  | .load b c => some (.load, [b, c])
  | .write b c => some (.write, [b, c])
  | .min b c d => some (.min, [b, c, d])
  | .read b c d => some (.read, [b, c, d])

/-- The record instruction of a kind and an operand list, where the count is the kind's (60_exceptions.md R132). -/
def Instr.ofOps : Kind → List Nat → Option Instr
  | .load, [b, c] => some (.load b c)
  | .write, [b, c] => some (.write b c)
  | .min, [b, c, d] => some (.min b c d)
  | .read, [b, c, d] => some (.read b c d)
  | .load, _ => none
  | .write, _ => none
  | .min, _ => none
  | .read, _ => none

end Sys2Proof
end

