-- ==== Sys2Proof/WellFormed.lean ====
section
/-! DEFINITION. Which instructions can be written down: every operand fits the port or the record field that carries it
(10_state.md R18 to R20, 30_encoding.md R62 to R65, R70). -/

namespace Sys2Proof

/-- `WW` = 6: the width of the `width` port (00_scope.md R3, 10_state.md R18). -/
def widthPortBits : Nat := 6

/-- The check of an instruction's operands against the ports (R18 to R20) and the record fields (R70). A width in
33..63 is presentable, and is an error only when the command runs (60_exceptions.md R124). -/
def Instr.wf (P : Params) : Instr → Bool
  | .nop => true
  | .pack w o v => decide (w < 2 ^ widthPortBits) && decide (o < 2 ^ P.offW) && decide (v < 2 ^ P.maxW)
  | .unpack w o => decide (w < 2 ^ widthPortBits) && decide (o < 2 ^ P.offW)
  | .reservedOp3 => true
  | .load b c => decide (b < 2 ^ 17) && decide (c < 2 ^ 23)
  | .write b c => decide (b < 2 ^ 23) && decide (c < 2 ^ 23)
  | .min b c d => decide (b < 2 ^ 23) && decide (c < 2 ^ 23) && decide (d < 2 ^ 23)
  | .read b c d => decide (b < 2 ^ 10) && decide (c < 2 ^ 23) && decide (d < 2 ^ 23)

end Sys2Proof
end

