-- ==== Sys2Proof/Decode.lean ====
section
/-! DEFINITION. From words to instructions (30_encoding.md, 42_record_layouts.md R103), and back.

The decoder reads record fields with the codec's own UNPACK (R103); the encoder writes a record as the number its format
is drawn as (R62 to R65), so the two are written from different rules. -/

namespace Sys2Proof

/-! ## Record formats -/

/-- One row of `LAYOUT(m)` (42_record_layouts.md R96). -/
structure Layout where
  tag : Nat
  /-- LEN in bytes (30_encoding.md R68). -/
  len : Nat
  /-- Operand widths in table order. -/
  widths : List Nat
deriving DecidableEq, Repr

/-- `LAYOUT(m)` (R96). -/
def layout (P : Params) : Kind → Layout
  | .load => { tag := 2, len := 6, widths := [17, 23] }
  | .write => { tag := 3, len := 7, widths := [23, 23] }
  | .min => { tag := 6, len := P.minRecordBytes, widths := [23, 23, 23] }
  | .read => { tag := 7, len := 8, widths := [10, 23, 23] }

/-- Where operand `k`, counted from 0, starts: 3 plus the widths before it (30_encoding.md R66). -/
def Layout.offset (l : Layout) (k : Nat) : Nat := 3 + (l.widths.take k).sum

/-- The width of operand `k`, counted from 0. -/
def Layout.width (l : Layout) (k : Nat) : Nat := l.widths.getD k 0

/-- `U`, the bits a record uses (R66). -/
def Layout.usedBits (l : Layout) : Nat := 3 + l.widths.sum

/-- The tag map (R61). -/
def Kind.ofTag (t : Nat) : Option Kind :=
  if t = 2 then some .load
  else if t = 3 then some .write
  else if t = 6 then some .min
  else if t = 7 then some .read
  else none

/-! ## Decoding -/

/-- The command of a bundle: OP alone selects it (R52), and a field it does not use is dropped (R58). -/
def decodeCommand (b : Bundle) : Instr :=
  if b.op = 0 then .nop
  else if b.op = 1 then .pack b.w b.o b.v
  else if b.op = 2 then .unpack b.w b.o
  else .reservedOp3

/-- The instruction of a kind whose operand `k`, counted from 0, is `field k`. -/
def recordInstr (m : Kind) (field : Nat → Nat) : Instr :=
  match m with
  | .load => .load (field 0) (field 1)
  | .write => .write (field 0) (field 1)
  | .min => .min (field 0) (field 1) (field 2)
  | .read => .read (field 0) (field 1) (field 2)

/-- `UNPACK(P, 8p, 3)`: the tag of the record at byte `p` (R103, R107). -/
def tagAt (P : Params) (S : Memory) (p : Nat) : Nat := unpackBits P.bitOrder S (8 * p) 3

/-- `DecodeRecord(P, p)` (R103) of the record at byte `p` of a stream of `L` bytes: the tag first, then the length, then
each field by UNPACK. No padding bit is read (R104). A stream longer than `STREAM_CAP` decodes alike (R110; log 19). -/
def decodeRecord (P : Params) (S : Memory) (p L : Nat) : Except RecordError Instr :=
  match Kind.ofTag (tagAt P S p) with
  | none => .error (.unknownOpcodeTag p (tagAt P S p))
  | some m =>
    if L < p + (layout P m).len then
      .error (.truncatedProgram p (tagAt P S p) (layout P m).len (L - p))
    else
      .ok (recordInstr m fun k =>
        unpackBits P.bitOrder S (8 * p + (layout P m).offset k) ((layout P m).width k))

/-- The decoder on any words. A command always decodes; the record is the one at byte 0. -/
def decode (P : Params) : Words → Except RecordError Instr
  | .command b => .ok (decodeCommand b)
  | .record bytes => decodeRecord P (Memory.ofBytes bytes) 0 bytes.length

/-! ## Encoding -/

/-- CMDH = (w << 2) | op (R51). -/
def header (w op : Nat) : BitVec 8 := BitVec.ofNat 8 (w * 4 + op)

/-- The fields of a record in table order, each a width and a value, the tag first (R60, R66). -/
def recordFields (l : Layout) (ops : List Nat) : List (Nat × Nat) := (3, l.tag) :: l.widths.zip ops

/-- The number whose low bits are the first field, the next bits the second field, and so on (R62 to R65). -/
def fieldsUp : List (Nat × Nat) → Nat
  | [] => 0
  | (w, v) :: fields => v + 2 ^ w * fieldsUp fields

/-- The number whose high bits are the first field (R36, R38), below the bits `acc` already there. -/
def fieldsDown : Nat → List (Nat × Nat) → Nat
  | acc, [] => acc
  | acc, (w, v) :: fields => fieldsDown (acc * 2 ^ w + v) fields

/-- The `n` bytes of a number, the low byte first (R37). -/
def leBytes (n v : Nat) : List Byte := (List.range n).map fun i => BitVec.ofNat 8 (v / 2 ^ (8 * i))

/-- The `n` bytes of a number, the high byte first (R38). -/
def beBytes (n v : Nat) : List Byte := (List.range n).map fun i => BitVec.ofNat 8 (v / 2 ^ (8 * (n - 1 - i)))

/-- The bytes of a record from its format: the number R62 to R65 draw, low byte first, with zero padding (R67). Under the
alternative order the fields fill the bytes from their high bits (R36, R38). -/
def recordBytes (P : Params) (m : Kind) (ops : List Nat) : List Byte :=
  let l := layout P m
  match P.bitOrder with
  | .lsbFirst => leBytes l.len (fieldsUp (recordFields l ops))
  | .msbFirst => beBytes l.len (fieldsDown 0 (recordFields l ops) * 2 ^ (8 * l.len - l.usedBits))

/-- The words of an instruction: R51 and R52 for a command, R60 to R69 for a record. A port the command does not use is
driven 0. -/
def encode (P : Params) : Instr → Words
  | .nop => .command { cmdh := header 0 0, offset := 0, value := 0 }
  | .pack w o v => .command { cmdh := header w 1, offset := o, value := v }
  | .unpack w o => .command { cmdh := header w 2, offset := o, value := 0 }
  | .reservedOp3 => .command { cmdh := header 0 3, offset := 0, value := 0 }
  | .load b c => .record (recordBytes P .load [b, c])
  | .write b c => .record (recordBytes P .write [b, c])
  | .min b c d => .record (recordBytes P .min [b, c, d])
  | .read b c d => .record (recordBytes P .read [b, c, d])

/-! ## Words of the opcode table -/

/-- A table word of at most 8 bits is a command header, with offset and value 0; a longer one is a record (log 12). -/
def isCommandWord (nbits : Nat) : Bool := decide (nbits ≤ 8)

/-- The bundle of a table word of a command. -/
def tableBundle (w : Nat) : Bundle := { cmdh := BitVec.ofNat 8 w, offset := 0, value := 0 }

/-- How many bytes a table word of a record is laid out in: its own, and zeros up to the longest record (R68). -/
def tableRecordLength (nbits : Nat) : Nat := max ((nbits + 7) / 8) 10

/-- The bytes of a table word of a record, the low byte at the lowest address (R39). -/
def tableRecordBytes (nbits w : Nat) : List Byte := leBytes (tableRecordLength nbits) (w % 2 ^ nbits)

/-- The instruction the decoder reads from a word of spec/opcode_table.json, on this hardware. -/
def decodeTableWord (nbits w : Nat) : Option Instr :=
  if isCommandWord nbits then some (decodeCommand (tableBundle w))
  else (decode Config.bfc64 (.record (tableRecordBytes nbits w))).toOption

end Sys2Proof
end

