-- ==== Sys2Proof/Machine/State.lean ====
section
/-! DEFINITION. The machine's state, the reasons a step can stop, and the state after reset.

The codec itself holds nothing (10_state.md R15); the state is what the host keeps across a sequence of commands (R32,
42_record_layouts.md R97, R106, R113, R114), and what the host is still going to do (log 5). -/

namespace Sys2Proof.Machine

/-- One thing the host does, waiting in the agenda (log 5). -/
inductive Action where
  /-- Present the stream `bytes` with `len` on the length port (R21, R148): the start of a host sequence (R114). -/
  | present (bytes : List Byte) (len : Nat)
  /-- Present one command bundle on the current stream (R16, R114). -/
  | command (b : Bundle)
  /-- Start the encode of a program (R102): no bytes yet. -/
  | startEncode
  /-- Encode one record after the bytes encoded so far (R97, R102). -/
  | encode (kind : Kind) (ops : List Nat)
  /-- Present the encoded program as the stream. -/
  | presentEncoded
  /-- Start a walk over the current stream (R106). -/
  | startWalk
  /-- One turn of the walk's loop (R106 to R112). -/
  | walkStep
  /-- Turns of the walk's loop until it is Done (R112). -/
  | walk
deriving DecidableEq, Repr

/-- Where a walk stands (R106, R112). -/
inductive WalkStatus where
  | idle
  | running
  /-- `Done`. -/
  | done
deriving DecidableEq, Repr

/-- Which host procedure a record is run by: `EncodeRecord` (R97) or `DecodeRecord` (R103) (log 8). -/
inductive Procedure where
  | encoding
  | decoding
deriving DecidableEq, Repr

/-- One entry `(p, m, ops)` of the walk's result (R113). -/
structure WalkRecord where
  /-- The byte offset `p` of the record. -/
  pos : Nat
  kind : Kind
  ops : List Nat
deriving DecidableEq, Repr

/-- How a run ended. -/
inductive Halt where
  /-- `Stopped(i, cause, ..)` of R114; the stream and the values are in the state. -/
  | stopped (index : Nat) (cause : Cause)
  /-- A record error ended an encode (R102) or a walk (R108, R109). -/
  | record (e : RecordError)
deriving DecidableEq, Repr

/-- The machine. `params` and `procedure` are the model's own (log 1, 8). -/
structure State where
  /-- The parameters of 00_scope.md R3; no step writes them. -/
  params : Params
  /-- The stream's bytes, and those of the port beyond it (R21, R22, R50). -/
  mem : Memory
  /-- `L`, the stream's length in bytes (R21, R32). -/
  len : Nat
  /-- The last `value_out` (R23, R32). -/
  valueOut : Nat
  /-- The last `err` (R24, R32). -/
  err : Bool
  /-- The last `cause` (R25, R32). -/
  cause : Cause
  /-- The client's stream pointer (R27, R106). -/
  p : Nat
  /-- The records the walk has decoded, in stream order (R113). -/
  records : List WalkRecord
  /-- Where the walk stands (R112). -/
  walk : WalkStatus
  /-- The bytes of the program being encoded (R102). -/
  encoded : List Byte
  /-- The index of the next command of the sequence (R114). -/
  index : Nat
  /-- The values the sequence has unpacked (R114). -/
  vals : List Nat
  /-- How the run ended, once it has (R113, R114). -/
  halt : Option Halt
  /-- What the host is still going to do, oldest first (log 5). -/
  agenda : List Action
  /-- Which procedure a record is run by (log 8). -/
  procedure : Procedure
deriving DecidableEq, Repr

/-- Why a step can stop with a fault. -/
inductive Fault where
  /-- Raised by a turn of the walk's loop whose pointer lies beyond the stream, where the spec gives no turn: R106 keeps
  `0 <= p <= L`, and no run from reset reaches such a state (log 11). Safe. -/
  | pointerBeyondStream
deriving DecidableEq, Repr

/-- Why a step can be refused. -/
inductive Refusal where
  /-- An instruction without a meaning, by its mnemonic. No arm of `exec` answers it. Safe. -/
  | notModelled (mnemonic : String)
deriving DecidableEq, Repr

/-- The host before it has done anything (R31, R146). The codec has no reset (R146). R31 gives `p` = 0; R114 gives the
start of `index` and `vals`; the values of `mem`, `len` (log 4), of the outputs (log 3), of `params` (log 2) and of the
host's bookkeeping (log 5, 8) are DESIGN CHOICES. -/
def State.reset : State :=
  { params := Config.bfc64
    mem := []
    len := 0
    valueOut := 0
    err := false
    cause := .none
    p := 0
    records := []
    walk := .idle
    encoded := []
    index := 0
    vals := []
    halt := none
    agenda := []
    procedure := .decoding }

end Sys2Proof.Machine
end

