-- ==== Sys2Proof/Machine/Ops.lean ====
section
/-! DEFINITION. The shared operations: the codec's evaluation of one command (41_codec_ops.md R74), its error report
(60_exceptions.md R129), the host's record procedures (42_record_layouts.md R97, R102, R113) and what each does to the
state.

The spec has no exception to take and none to return from (R130, R131): `Outputs.raise` is what stands in their place. -/

namespace Sys2Proof.Machine

/-! ## The codec -/

/-- One output bundle (10_state.md R22 to R25). -/
structure Outputs where
  /-- `stream_out`. -/
  stream : Memory
  /-- `value_out`. -/
  value : Nat
  err : Bool
  cause : Cause
deriving DecidableEq, Repr

/-- The outputs of a command that raises `c` on the stream `S` (60_exceptions.md R129, 00_scope.md R7). -/
def Outputs.raise (S : Memory) (c : Cause) : Outputs := { stream := S, value := 0, err := errOf c, cause := c }

/-- The outputs of a command that completes (R7). -/
def Outputs.complete (S : Memory) (v : Nat) : Outputs := { stream := S, value := v, err := false, cause := .none }

/-- What a command whose checks passed drives (R75, R76, R77). -/
def completed (P : Params) (op w o v : Nat) (S : Memory) : Outputs :=
  if op = 1 then .complete (packBits P.bitOrder S o w v) 0
  else if op = 2 then .complete S (unpackBits P.bitOrder S o w)
  else .complete S 0

/-- One command on a stream `S` of length `L` (R74): the checks in their order, then the command's own outputs. There is
no third outcome, and no output depends on an earlier command (R81). -/
def evaluate (P : Params) (op w o v L : Nat) (S : Memory) : Outputs :=
  if check P op w o v L = .none then completed P op w o v S else .raise S (check P op w o v L)

/-! ## Updates of the state -/

/-- The host keeps the outputs of the last command (10_state.md R32). -/
def State.withOutputs (s : State) (value : Nat) (err : Bool) (cause : Cause) : State :=
  { s with valueOut := value, err := err, cause := cause }

/-- The host takes a stream over (70_reset_and_hazards.md R151). -/
def State.withStream (s : State) (S : Memory) : State := { s with mem := S }

/-- The host moves on to the next command of its sequence (42_record_layouts.md R114). -/
def State.countCommand (s : State) : State := { s with index := s.index + 1 }

/-- The host keeps an unpacked value (R114). -/
def State.keepValue (s : State) (v : Nat) : State := { s with vals := s.vals ++ [v] }

/-- The run ends (R114, R108, R109). -/
def State.stop (s : State) (h : Halt) : State := { s with halt := some h }

/-- What the host still has to do. -/
def State.withAgenda (s : State) (rest : List Action) : State := { s with agenda := rest }

/-- Which procedure runs the next record (log 8). -/
def State.withProcedure (s : State) (q : Procedure) : State := { s with procedure := q }

/-- The bytes encoded so far (R102). -/
def State.withEncoded (s : State) (bytes : List Byte) : State := { s with encoded := bytes }

/-- A record is decoded and the pointer passes it: the only write of `p` within a walk (R111, R113). The walk goes on. -/
def State.pushRecord (s : State) (m : Kind) (ops : List Nat) : State :=
  { s with
    records := s.records ++ [{ pos := s.p, kind := m, ops := ops }]
    p := s.p + (layout s.params m).len
    walk := .running }

/-- A walk starts at byte 0 with no records (R106). -/
def State.startWalk (s : State) : State := { s with p := 0, records := [], walk := .running }

/-- The walk has reached the stream's end (R112). -/
def State.walkDone (s : State) : State := { s with walk := .done }

/-- A new stream (R21, R114: `S <- S0; vals <- []`). A walk over it starts at byte 0 (R106; log 10). -/
def State.presentStream (s : State) (S : Memory) (L : Nat) : State :=
  { s with mem := S, len := L, p := 0, records := [], walk := .idle, index := 0, vals := [] }

/-! ## One command of a host sequence -/

/-- The loop body of `Run` (R114) for one command: on an error the run stops, with the stream from before the command
(70_reset_and_hazards.md R150); else the stream out is the next stream in, and an UNPACK's value is kept. -/
def State.runCommand (s : State) (op w o v : Nat) : State :=
  let r := evaluate s.params op w o v s.len s.mem
  if r.err then (s.withOutputs r.value r.err r.cause).stop (.stopped s.index r.cause)
  else
    let t := ((s.withOutputs r.value r.err r.cause).withStream r.stream).countCommand
    if op = 2 then t.keepValue r.value else t

/-! ## Encoding records -/

/-- The loop of `EncodeRecord` (R97): one PACK per operand in table order, into the record buffer `S` of `n` bytes from
bit `o` on; `k` is the operand's index, counted from 1. -/
def encodeFields (P : Params) (m : Kind) (n : Nat) : List Nat → List Nat → Nat → Nat → Memory → Except RecordError Memory
  | w :: ws, v :: ops, o, k, S =>
    let r := evaluate P 1 w o v n S
    if r.err then .error (.operandRange m k v w) else encodeFields P m n ws ops (o + w) (k + 1) r.stream
  | [], _, _, _, S => .ok S
  | _ :: _, [], _, _, S => .ok S

/-- `EncodeRecord(m, ops)` (R97): the operand count, then the tag and the fields into a buffer of zero bytes
(70_reset_and_hazards.md R149). -/
def encodeRecord (P : Params) (m : Kind) (ops : List Nat) : Except RecordError (List Byte) :=
  let l := layout P m
  if ops.length ≠ l.widths.length then .error (.operandCountMismatch m ops.length l.widths.length)
  else
    match encodeFields P m l.len l.widths ops 3 1 (evaluate P 1 3 0 l.tag l.len []).stream with
    | .ok S => .ok (S.toBytes l.len)
    | .error e => .error e

/-- `EncodeProgram(lines)` (R102): the records in order, without header, footer or padding; the first error returns no
bytes. -/
def encodeProgram (P : Params) : List (Kind × List Nat) → Except RecordError (List Byte)
  | [] => .ok []
  | (m, ops) :: lines =>
    match encodeRecord P m ops with
    | .error e => .error e
    | .ok bytes =>
      match encodeProgram P lines with
      | .error e => .error e
      | .ok more => .ok (bytes ++ more)

/-- The outputs the host has seen last when an encode ends with `e`: those of the failing PACK, or, for a wrong operand
count, none new (R97, R132, R133; log 14). -/
def State.afterEncodeError (s : State) (e : RecordError) : State :=
  match e with
  | .operandRange _ _ _ _ => s.withOutputs 0 true .value
  | .operandCountMismatch _ _ _ => s
  | .unknownOpcodeTag _ _ => s
  | .truncatedProgram _ _ _ _ => s

/-- The host encodes one record of its program (R97, R102). An error ends the run and leaves no bytes (log 9). -/
def State.encode (s : State) (m : Kind) (ops : List Nat) : State :=
  match encodeRecord s.params m ops with
  | .ok bytes => (s.withOutputs 0 false .none).withEncoded (s.encoded ++ bytes)
  | .error e => ((s.afterEncodeError e).withEncoded []).stop (.record e)

/-! ## Walking records -/

/-- The walk takes a decoded record over and advances (R103, R111, R113). The last command issued was the UNPACK of the
record's last operand (log 14). -/
def State.takeRecord (s : State) (m : Kind) (ops : List Nat) : State :=
  (s.withOutputs (ops.getLastD 0) false .none).pushRecord m ops

/-- A record error ends the walk (R108, R109). The last command issued was the UNPACK of the tag (R107; log 14). -/
def State.walkError (s : State) (e : RecordError) : State :=
  (s.withOutputs (tagAt s.params s.mem s.p) false .none).stop (.record e)

/-- One record, by the procedure the host is running (R98 to R101; log 8). -/
def State.runRecord (s : State) (m : Kind) (ops : List Nat) : State :=
  match s.procedure with
  | .encoding => s.encode m ops
  | .decoding => s.takeRecord m ops

/-! ## What the host does next -/

/-- What a step has to do: nothing more than take a state over, run an instruction, or stop. -/
inductive Work where
  | settled (t : State)
  | run (i : Instr) (t : State)
  | stuck (f : Fault)
deriving DecidableEq, Repr

/-- One turn of the walk's loop (R106 to R112): `Done` exactly at the stream's end, else the record at `p` is decoded and
run. `rest` is the agenda once the walk is done, `again` the agenda while it goes on. -/
def State.walkTurn (s : State) (rest again : List Action) : Work :=
  if s.len < s.p then .stuck .pointerBeyondStream
  else if s.p = s.len then .settled (s.walkDone.withAgenda rest)
  else
    match decodeRecord s.params s.mem s.p s.len with
    | .ok i => .run i ((s.withAgenda again).withProcedure .decoding)
    | .error e => .settled ((s.withAgenda again).walkError e)

/-- One record of a program to encode: the instruction it is, or the count error of R132. -/
def State.encodeTurn (s : State) (m : Kind) (ops : List Nat) (rest : List Action) : Work :=
  match Instr.ofOps m ops with
  | some i => .run i ((s.withAgenda rest).withProcedure .encoding)
  | none => .settled ((s.withAgenda rest).encode m ops)

/-- The host's first action. -/
def State.perform (s : State) (a : Action) (rest : List Action) : Work :=
  match a with
  | .present bytes n => .settled ((s.withAgenda rest).presentStream (.ofBytes bytes) n)
  | .command b => .run (decodeCommand b) (s.withAgenda rest)
  | .startEncode => .settled ((s.withAgenda rest).withEncoded [])
  | .encode m ops => s.encodeTurn m ops rest
  | .presentEncoded => .settled ((s.withAgenda rest).presentStream (.ofBytes s.encoded) s.encoded.length)
  | .startWalk => .settled (s.withAgenda rest).startWalk
  | .walkStep => s.walkTurn rest rest
  | .walk => s.walkTurn rest (.walk :: rest)

/-- What the host does next. A run that has ended, or that has nothing left to do, stays as it is (log 6). -/
def State.next (s : State) : Work :=
  match s.halt with
  | some _ => .settled s
  | none =>
    match s.agenda with
    | [] => .settled s
    | a :: rest => s.perform a rest

/-! ## Placing an instruction -/

/-- A command bundle as the next thing the host does. -/
def State.placeCommand (s : State) (b : Bundle) : State :=
  { s with halt := none, agenda := .command b :: s.agenda }

/-- The bytes of a record as the stream, and a turn of the walk at its start as the next thing the host does. -/
def State.placeRecord (s : State) (bytes : List Byte) : State :=
  { s with halt := none, agenda := .walkStep :: s.agenda, mem := .ofBytes bytes, len := bytes.length, p := 0 }

end Sys2Proof.Machine
end

