-- ==== Sys2Proof/Machine/Commands.lean ====
section
/-! DEFINITION. The meanings of the codec commands (41_codec_ops.md R75 to R77, 60_exceptions.md R123), as commands of a
host sequence (42_record_layouts.md R114). -/

namespace Sys2Proof.Machine

/-- NOP (R75): the stream passes through, `value_out` is 0, and no check runs. -/
def execNop (s : State) : Host.Outcome State Fault Refusal := .next (s.runCommand 0 0 0 0)

/-- PACK (R76). -/
def execPack (w o v : Nat) (s : State) : Host.Outcome State Fault Refusal := .next (s.runCommand 1 w o v)

/-- UNPACK (R77); `value_in` is ignored (R58). -/
def execUnpack (w o : Nat) (s : State) : Host.Outcome State Fault Refusal := .next (s.runCommand 2 w o 0)

/-- The reserved selector `0b11` reports ILLEGAL_OP whatever the other inputs hold (R123). -/
def execReservedOp3 (s : State) : Host.Outcome State Fault Refusal := .next (s.runCommand 3 0 0 0)

end Sys2Proof.Machine
end

