-- ==== Sys2Proof/Machine/Records.lean ====
section
/-! DEFINITION. The meanings of the records (42_record_layouts.md R98 to R101): encoded by PACKs into the program being
built (R97, R102), or taken over by the walk that decoded them by UNPACKs (R103, R111). What an Executor does with a
decoded record is out of scope (00_scope.md R2). -/

namespace Sys2Proof.Machine

/-- LOAD (R98). -/
def execLoad (b c : Nat) (s : State) : Host.Outcome State Fault Refusal := .next (s.runRecord .load [b, c])

/-- WRITE (R99). -/
def execWrite (b c : Nat) (s : State) : Host.Outcome State Fault Refusal := .next (s.runRecord .write [b, c])

/-- MIN (R100). -/
def execMin (b c d : Nat) (s : State) : Host.Outcome State Fault Refusal := .next (s.runRecord .min [b, c, d])

/-- READ (R101). -/
def execRead (b c d : Nat) (s : State) : Host.Outcome State Fault Refusal := .next (s.runRecord .read [b, c, d])

end Sys2Proof.Machine
end

