-- ==== Sys2Proof/Machine/Dispatch.lean ====
section
/-! DEFINITION. One arm per instruction, each calling its meaning. -/

namespace Sys2Proof.Machine

def exec (i : Instr) (s : State) : Host.Outcome State Fault Refusal :=
  match i with
  | .nop => Sys2Proof.Machine.execNop s
  | .pack w o v => Sys2Proof.Machine.execPack w o v s
  | .unpack w o => Sys2Proof.Machine.execUnpack w o s
  | .reservedOp3 => Sys2Proof.Machine.execReservedOp3 s
  | .load b c => Sys2Proof.Machine.execLoad b c s
  | .write b c => Sys2Proof.Machine.execWrite b c s
  | .min b c d => Sys2Proof.Machine.execMin b c d s
  | .read b c d => Sys2Proof.Machine.execRead b c d s

end Sys2Proof.Machine
end

