-- ==== Sys2Proof/Machine/Step.lean ====
section
/-! DEFINITION. One step of the machine: what the host does next (Ops.lean), running an instruction where there is one
(70_reset_and_hazards.md R154: one command per step; log 7). -/

namespace Sys2Proof.Machine

/-- One step. -/
def step (s : State) : Host.Outcome State Fault Refusal :=
  match s.next with
  | .settled t => .next t
  | .run i t => exec i t
  | .stuck f => .fault f

/-- `s` with a word of spec/opcode_table.json placed where the next step takes its instruction from: a command header as
the host's next command, or a record as the stream, at whose start the host's next action takes a turn of the walk. -/
def State.withFetchWord (s : State) (nbits w : Nat) : State :=
  if isCommandWord nbits then s.placeCommand (tableBundle w) else s.placeRecord (tableRecordBytes nbits w)

end Sys2Proof.Machine
end

