-- ==== Sys2Proof/Machine/Datapath.lean ====
section
/-! DEFINITION. The datapath of the block: alignment, mask generator and barrel shifter over a window of bytes
(41_codec_ops.md R78 to R80). It computes PACK and UNPACK; that it does is stated in Certificates. -/

namespace Sys2Proof.Datapath

/-- `i0`, the first byte a field touches: the alignment stage (R78). -/
def firstByte (o : Nat) : Nat := o >>> 3

/-- `ph`, the phase within that byte (R78). -/
def phase (o : Nat) : Nat := o % 8

/-- `nb`, the bytes a field touches (R78, 20_memory.md R43). -/
def bytesTouched (o w : Nat) : Nat := if w = 0 then 0 else (phase o + w + 7) >>> 3

/-- The bit of the window at which byte `k` of `nb` starts (R78; R79 for the alternative order). -/
def lane (order : BitOrder) (nb k : Nat) : Nat :=
  match order with
  | .lsbFirst => 8 * k
  | .msbFirst => 8 * (nb - 1 - k)

/-- The sum of the first `n` byte lanes of a window of `nb` bytes. -/
def gatherLanes (order : BitOrder) (S : Memory) (i0 nb : Nat) : Nat → Nat
  | 0 => 0
  | n + 1 => gatherLanes order S i0 nb n + (S.read (i0 + n)).toNat <<< lane order nb n

/-- `Wd`, the window (R78, R79). -/
def gather (order : BitOrder) (S : Memory) (o w : Nat) : Nat :=
  gatherLanes order S (firstByte o) (bytesTouched o w) (bytesTouched o w)

/-- How far the barrel shifter moves the value: `ph` (R78), or `sh` (R79). -/
def shiftAmount (order : BitOrder) (o w : Nat) : Nat :=
  match order with
  | .lsbFirst => phase o
  | .msbFirst => 8 * bytesTouched o w - phase o - w

/-- `M`, the mask generator (R78, R79). -/
def mask (order : BitOrder) (o w : Nat) : Nat := (2 ^ w - 1) <<< shiftAmount order o w

/-- `Wd & ~M`, the complement taken within the window of `nb` bytes. -/
def clearUnder (nb window m : Nat) : Nat := window &&& ((2 ^ (8 * nb) - 1) ^^^ m)

/-- `Wd'`, the value merged under the mask (R78, R79). -/
def merged (order : BitOrder) (S : Memory) (o w v : Nat) : Nat :=
  clearUnder (bytesTouched o w) (gather order S o w) (mask order o w) ||| v <<< shiftAmount order o w

/-- The first `n` byte lanes of a window of `nb` bytes scattered back. -/
def scatterLanes (order : BitOrder) (S : Memory) (i0 nb window : Nat) : Nat → Memory
  | 0 => S
  | n + 1 =>
    (scatterLanes order S i0 nb window n).write (i0 + n) (BitVec.ofNat 8 (window >>> lane order nb n))

/-- PACK through the datapath (R78, R79). -/
def pack (order : BitOrder) (S : Memory) (o w v : Nat) : Memory :=
  scatterLanes order S (firstByte o) (bytesTouched o w) (merged order S o w v) (bytesTouched o w)

/-- UNPACK through the datapath (R78, R79). -/
def unpack (order : BitOrder) (S : Memory) (o w : Nat) : Nat :=
  (gather order S o w >>> shiftAmount order o w) &&& (2 ^ w - 1)

/-- The window's width in bits for a `MAX_W` (R80). -/
def windowBits (P : Params) : Nat := 8 * ((7 + P.maxW + 7) / 8)

end Sys2Proof.Datapath
end

