-- ==== Sys2Proof/Safety.lean ====
section
/-! DEFINITION. The terms the claims use: a safe state, an operand list a record can hold, and the host sequence `Run` of
42_record_layouts.md R114 written apart from the machine. -/

namespace Sys2Proof

/-- The operand list has the record's count and every operand fits its field (30_encoding.md R70, 60_exceptions.md R132,
R133). -/
def opsInRange (l : Layout) (ops : List Nat) : Prop :=
  ops.length = l.widths.length ∧ ∀ f ∈ l.widths.zip ops, f.2 < 2 ^ f.1

namespace Machine

/-- Records stand one after another from byte `a` to byte `b`: each starts where the one before it ends (30_encoding.md
R69). -/
def contiguous (P : Params) : Nat → List WalkRecord → Nat → Prop
  | a, [], b => a = b
  | a, r :: rs, b => r.pos = a ∧ contiguous P (a + (layout P r.kind).len) rs b

/-- A safe state: what every run keeps. -/
structure Inv (s : State) : Prop where
  /-- The parameters are ones R3 allows. -/
  params : s.params.legal
  /-- The stream is in its canonical form. -/
  mem : s.mem.wf = true
  /-- `0 <= p <= L` (42_record_layouts.md R106). -/
  pointer : s.p ≤ s.len
  /-- `err` is 1 exactly when `cause` is not NONE (10_state.md R24, R25). -/
  flags : s.err = errOf s.cause
  /-- `value_out` fits its port (10_state.md R23). -/
  value : s.valueOut < 2 ^ s.params.maxW
  /-- So does every value kept (42_record_layouts.md R114). -/
  vals : ∀ v ∈ s.vals, v < 2 ^ s.params.maxW
  /-- The walk's records fill the bytes it has passed, without a gap (30_encoding.md R69, 42_record_layouts.md R111). -/
  records : contiguous s.params 0 s.records s.p
  /-- Each record's operands are ones its format can hold (30_encoding.md R70). -/
  operands : ∀ r ∈ s.records, opsInRange (layout s.params r.kind) r.ops

/-- The run is over: it was stopped, or the host has nothing left to do. -/
def State.ended (s : State) : Prop := s.halt ≠ none ∨ s.agenda = []

/-- What `Run` returns (R114). -/
inductive RunResult where
  | stopped (i : Nat) (cause : Cause) (S : Memory) (vals : List Nat)
  | finished (S : Memory) (vals : List Nat)
deriving DecidableEq, Repr

/-- `Run(cmds, S)` from command number `i` on, with the values so far (R114), on a stream of length `L`: a sequence of
evaluations of the bundles themselves, without decoder or machine. -/
def runCommands (P : Params) (L : Nat) : List Bundle → Nat → Memory → List Nat → RunResult
  | [], _, S, vals => .finished S vals
  | b :: cmds, i, S, vals =>
    let r := evaluate P b.op b.w b.o b.v L S
    if r.err then .stopped i r.cause S vals
    else runCommands P L cmds (i + 1) r.stream (if b.op = 2 then vals ++ [r.value] else vals)

/-- The result of a run a state stands at the end of. -/
def State.result (s : State) : Option RunResult :=
  match s.halt with
  | some (.stopped i c) => some (.stopped i c s.mem s.vals)
  | some (.record _) => none
  | none => if s.agenda = [] then some (.finished s.mem s.vals) else none

end Machine
end Sys2Proof
end

