-- ==== Sys2Proof/Certificates/Slice0/Obligations.lean ====
section
/-! DEFINITION. What is claimed of the machine. Each claim's docstring names the rule of the spec it formalises. -/

open Sys2Proof Sys2Proof.Machine

/-! ## Codec commands -/

/-- 41_codec_ops.md R75, with 30_encoding.md R58: whatever the bundle's other fields and the length hold, NOP passes the
stream through, drives 0 and reports no error. `index` is the position in the host sequence (R114). -/
def Obligations.NopPassesStreamThrough : Prop :=
  ∀ (b : Bundle) (s : State), b.op = 0 →
    exec (decodeCommand b) s =
      .next { s with valueOut := 0, err := false, cause := .none, index := s.index + 1 }

/-- 41_codec_ops.md R76, 20_memory.md R35, R36: a PACK whose checks pass writes bit `j` of the value (bit `w - 1 - j` under
MSB_FIRST) to stream bit `o + j`, leaves every other stream bit, and changes nothing else but the outputs. -/
def Obligations.PackWritesExactlyItsField : Prop :=
  ∀ (s : State) (w o v : Nat), w ≤ s.params.maxW → s.len ≤ s.params.streamCap → o + w ≤ 8 * s.len → v < 2 ^ w →
    ∃ t, exec (.pack w o v) s = .next t ∧
      (s.params.bitOrder = .lsbFirst → ∀ j, j < w → streamBit .lsbFirst t.mem (o + j) = v.testBit j) ∧
      (s.params.bitOrder = .msbFirst → ∀ j, j < w → streamBit .msbFirst t.mem (o + j) = v.testBit (w - 1 - j)) ∧
      (∀ k, k < o ∨ o + w ≤ k →
        streamBit s.params.bitOrder t.mem k = streamBit s.params.bitOrder s.mem k) ∧
      t = { s with mem := t.mem, valueOut := 0, err := false, cause := .none, index := s.index + 1 }

/-- 41_codec_ops.md R76, the equivalent form under LSB_FIRST: `N(S') = (N(S) & ~(((2^w)-1) << o)) | (v << o)` within `8L`
bits. -/
def Obligations.PackMergesIntoLittleEndianInteger : Prop :=
  ∀ (s : State) (w o v : Nat), s.params.bitOrder = .lsbFirst →
    w ≤ s.params.maxW → s.len ≤ s.params.streamCap → o + w ≤ 8 * s.len → v < 2 ^ w →
    ∃ t, exec (.pack w o v) s = .next t ∧
      leInt t.mem s.len =
        (leInt s.mem s.len &&& ((2 ^ (8 * s.len) - 1) ^^^ ((2 ^ w - 1) <<< o))) ||| (v <<< o)

/-- 41_codec_ops.md R77, 10_state.md R23: an UNPACK whose checks pass drives the field's value, below `2^w`, and keeps the
stream; the host keeps the value (42_record_layouts.md R114). -/
def Obligations.UnpackReadsItsField : Prop :=
  ∀ (s : State) (w o : Nat), w ≤ s.params.maxW → s.len ≤ s.params.streamCap → o + w ≤ 8 * s.len →
    ∃ t, exec (.unpack w o) s = .next t ∧
      (s.params.bitOrder = .lsbFirst → ∀ j, j < w → t.valueOut.testBit j = streamBit .lsbFirst s.mem (o + j)) ∧
      (s.params.bitOrder = .msbFirst →
        ∀ j, j < w → t.valueOut.testBit (w - 1 - j) = streamBit .msbFirst s.mem (o + j)) ∧
      t.valueOut < 2 ^ w ∧
      t = { s with
        valueOut := t.valueOut, err := false, cause := .none
        index := s.index + 1, vals := s.vals ++ [t.valueOut] }

/-- 60_exceptions.md R123: the reserved selector reports ILLEGAL_OP, code 4, whatever every other input holds. -/
def Obligations.ReservedSelectorIsIllegal : Prop :=
  ∀ (b : Bundle) (s : State), b.op = 3 →
    exec (decodeCommand b) s =
      .next { s with valueOut := 0, err := true, cause := .illegalOp, halt := some (.stopped s.index .illegalOp) } ∧
    Cause.illegalOp.code = 4

/-- 60_exceptions.md R129: a command whose check raises drives `err` = 1, its cause, the stream as it came in and
`value_out` = 0, and changes nothing else; the host's sequence stops (42_record_layouts.md R114). -/
def Obligations.ErrorReportLeavesStream : Prop :=
  ∀ (b : Bundle) (s : State), check s.params b.op b.w b.o b.v s.len ≠ .none →
    exec (decodeCommand b) s =
      .next { s with
        valueOut := 0, err := true, cause := check s.params b.op b.w b.o b.v s.len
        halt := some (.stopped s.index (check s.params b.op b.w b.o b.v s.len)) }

/-- 60_exceptions.md R122 to R128: which cause code each command drives, by the inputs alone: the first check that holds
in the order ILLEGAL_OP, WIDTH, BOUNDS, VALUE; and `cause` is 0 exactly when `err` is 0. -/
def Obligations.FirstFailingCheckIsReported : Prop :=
  ∀ (b : Bundle) (s : State), ∃ t, exec (decodeCommand b) s = .next t ∧
    (t.cause.code = 4 ↔ b.op = 3) ∧
    (t.cause.code = 3 ↔ (b.op = 1 ∨ b.op = 2) ∧ s.params.maxW < b.w) ∧
    (t.cause.code = 1 ↔ (b.op = 1 ∨ b.op = 2) ∧ b.w ≤ s.params.maxW ∧
      (s.params.streamCap < s.len ∨ 8 * s.len < b.o + b.w)) ∧
    (t.cause.code = 2 ↔ b.op = 1 ∧ b.w ≤ s.params.maxW ∧ s.len ≤ s.params.streamCap ∧
      b.o + b.w ≤ 8 * s.len ∧ 2 ^ b.w ≤ b.v) ∧
    (t.cause.code = 0 ↔ t.err = false)

/-- 41_codec_ops.md R84: what a completed PACK wrote, an UNPACK of the same field completes with. -/
def Obligations.UnpackReturnsWhatPackWrote : Prop :=
  ∀ (s t : State) (w o v : Nat), exec (.pack w o v) s = .next t → t.err = false →
    ∃ u, exec (.unpack w o) t = .next u ∧ u.err = false ∧ u.valueOut = v

/-- 41_codec_ops.md R85: a completed PACK keeps the length and every stream bit outside its field. -/
def Obligations.PackFramesOtherBits : Prop :=
  ∀ (s t : State) (w o v : Nat), exec (.pack w o v) s = .next t → t.err = false →
    (∀ k, k < 8 * s.len → ¬(o ≤ k ∧ k < o + w) →
      streamBit s.params.bitOrder t.mem k = streamBit s.params.bitOrder s.mem k) ∧
    t.len = s.len

/-- The frame of PACK in bytes, completed or not (20_memory.md R43, R50, 41_codec_ops.md R78): every byte outside the `nb`
bytes from `i0` on reads as before, those of the port beyond the stream among them. -/
def Obligations.PackKeepsUntouchedBytes : Prop :=
  ∀ (s t : State) (w o v : Nat), exec (.pack w o v) s = .next t →
    ∀ a, a < Datapath.firstByte o ∨ Datapath.firstByte o + Datapath.bytesTouched o w ≤ a →
      t.mem.read a = s.mem.read a

/-- 41_codec_ops.md R86: packing back what was unpacked completes and leaves the stream as it was. -/
def Obligations.RepackIsIdentity : Prop :=
  ∀ (s t : State) (w o : Nat), s.mem.wf = true → exec (.unpack w o) s = .next t → t.err = false →
    ∃ u, exec (.pack w o t.valueOut) s = .next u ∧ u.err = false ∧ u.mem = s.mem

/-- 41_codec_ops.md R87: of two completed PACKs of one field the last one decides the stream, and one with the same
arguments changes nothing more. -/
def Obligations.LastPackWins : Prop :=
  ∀ (s s1 s2 : State) (w o v1 v2 : Nat), s.mem.wf = true →
    exec (.pack w o v1) s = .next s1 → s1.err = false → exec (.pack w o v2) s1 = .next s2 → s2.err = false →
    (∃ u, exec (.pack w o v2) s = .next u ∧ u.err = false ∧ u.mem = s2.mem) ∧
    (∃ u, exec (.pack w o v1) s1 = .next u ∧ u.err = false ∧ u.mem = s1.mem)

/-- 41_codec_ops.md R88: PACKs of fields without a common bit, an empty field inside the other one among them, that
complete in one order complete in the other, with the same stream. -/
def Obligations.DisjointPacksCommute : Prop :=
  ∀ (s s1 s2 : State) (w1 o1 v1 w2 o2 v2 : Nat), s.mem.wf = true →
    (∀ k, ¬((o1 ≤ k ∧ k < o1 + w1) ∧ (o2 ≤ k ∧ k < o2 + w2))) →
    exec (.pack w1 o1 v1) s = .next s1 → s1.err = false → exec (.pack w2 o2 v2) s1 = .next s2 → s2.err = false →
    ∃ t1 t2, exec (.pack w2 o2 v2) s = .next t1 ∧ t1.err = false ∧
      exec (.pack w1 o1 v1) t1 = .next t2 ∧ t2.err = false ∧ t2.mem = s2.mem

/-- 41_codec_ops.md R89: on the same field and stream PACK reports WIDTH or BOUNDS exactly when UNPACK does, and UNPACK
never reports VALUE. -/
def Obligations.PackAndUnpackShareChecks : Prop :=
  ∀ (s : State) (w o v : Nat), ∃ t u, exec (.pack w o v) s = .next t ∧ exec (.unpack w o) s = .next u ∧
    (t.cause = .width ↔ u.cause = .width) ∧ (t.cause = .bounds ↔ u.cause = .bounds) ∧ u.cause ≠ .value

/-- 41_codec_ops.md R81, 60_exceptions.md R131: two machines with the same parameters, stream and length drive the same
outputs for the same command, whatever went before. -/
def Obligations.OutputsDependOnInputsAlone : Prop :=
  ∀ (b : Bundle) (s s' : State), s.params = s'.params → s.mem = s'.mem → s.len = s'.len →
    ∃ t t', exec (decodeCommand b) s = .next t ∧ exec (decodeCommand b) s' = .next t' ∧
      t.mem = t'.mem ∧ t.valueOut = t'.valueOut ∧ t.err = t'.err ∧ t.cause = t'.cause

/-- 41_codec_ops.md R77, the last corner case: UNPACK's outputs do not depend on any stream bit outside its field. -/
def Obligations.UnpackIgnoresOtherBits : Prop :=
  ∀ (s : State) (S : Memory) (w o : Nat),
    (∀ k, o ≤ k → k < o + w → streamBit s.params.bitOrder S k = streamBit s.params.bitOrder s.mem k) →
    ∃ t u, exec (.unpack w o) s = .next t ∧ exec (.unpack w o) { s with mem := S } = .next u ∧
      u = { t with mem := S }

/-- 20_memory.md R45, R50, 10_state.md R22: no instruction changes the length or the parameters, none but PACK changes the
stream, and none changes a byte beyond the stream. -/
def Obligations.OnlyPackWritesTheStream : Prop :=
  ∀ (i : Instr) (s : State), ∃ t, exec i s = .next t ∧ t.len = s.len ∧ t.params = s.params ∧
    ((∀ w o v, i ≠ .pack w o v) → t.mem = s.mem) ∧
    (∀ a, s.len ≤ a → t.mem.read a = s.mem.read a)

/-! ## Integer views and datapath -/

/-- 20_memory.md R37: under LSB_FIRST stream bit `k` is bit `k` of the little-endian number `N(S)`, and a field holds the
slice `N(S)[o+w-1 : o]`. -/
def Obligations.FieldIsSliceOfLittleEndianInteger : Prop :=
  ∀ (S : Memory) (L : Nat), leInt S L = ∑ i ∈ Finset.range L, (S.read i).toNat * 2 ^ (8 * i) ∧
    (∀ k, k < 8 * L → streamBit .lsbFirst S k = (leInt S L).testBit k) ∧
    (∀ o w, o + w ≤ 8 * L → unpackBits .lsbFirst S o w = slice (leInt S L) o w)

/-- 20_memory.md R38: under MSB_FIRST stream bit `k` is bit `8L-1-k` of the big-endian number `B(S)`, and a field holds
the slice `B(S)[8L-1-o : 8L-o-w]`. -/
def Obligations.FieldIsSliceOfBigEndianInteger : Prop :=
  ∀ (S : Memory) (L : Nat), beInt S L = ∑ i ∈ Finset.range L, (S.read i).toNat * 2 ^ (8 * (L - 1 - i)) ∧
    (∀ k, k < 8 * L → streamBit .msbFirst S k = (beInt S L).testBit (8 * L - 1 - k)) ∧
    (∀ o w, o + w ≤ 8 * L → unpackBits .msbFirst S o w = slice (beInt S L) (8 * L - o - w) w)

/-- 41_codec_ops.md R78, R79: gathering the window, clearing it under the mask, merging the shifted value and scattering
the window back is PACK, in both bit orders. -/
def Obligations.DatapathComputesPack : Prop :=
  ∀ (order : BitOrder) (S : Memory) (o w v : Nat), S.wf = true → v < 2 ^ w →
    Datapath.pack order S o w v = packBits order S o w v

/-- 41_codec_ops.md R78, R79: shifting the window down and masking it is UNPACK, in both bit orders. -/
def Obligations.DatapathComputesUnpack : Prop :=
  ∀ (order : BitOrder) (S : Memory) (o w : Nat), Datapath.unpack order S o w = unpackBits order S o w

/-- 41_codec_ops.md R78 to R80, 20_memory.md R43: a field of at most `MAX_W` bits touches a window of `windowBits`, 40 for
`MAX_W` = 32; the shift is 0 to 7; the gathered window and the mask fit it; and a field inside the stream keeps its window
inside the stream, ending at the byte of its last bit. -/
def Obligations.DatapathStaysInItsWindow : Prop :=
  (∀ P : Params, P.maxW = 32 → Datapath.windowBits P = 40) ∧
  ∀ (P : Params) (order : BitOrder) (S : Memory) (o w L : Nat), w ≤ P.maxW → 0 < w → o + w ≤ 8 * L →
    8 * Datapath.bytesTouched o w ≤ Datapath.windowBits P ∧
    Datapath.shiftAmount order o w < 8 ∧
    Datapath.gather order S o w < 2 ^ Datapath.windowBits P ∧
    Datapath.mask order o w < 2 ^ Datapath.windowBits P ∧
    Datapath.firstByte o + Datapath.bytesTouched o w - 1 = (o + w - 1) / 8 ∧
    Datapath.firstByte o + Datapath.bytesTouched o w ≤ L

/-! ## Encodings -/

/-- 30_encoding.md R52, R53: each of the 256 headers selects its command by the table's match and mask alone, with W above
the selector. -/
def Obligations.SelectorAloneChoosesTheCommand : Prop :=
  ∀ (h : BitVec 8) (o v : Nat),
    (h &&& 0x03#8 = 0x00#8 → decodeCommand ⟨h, o, v⟩ = .nop) ∧
    (h &&& 0x03#8 = 0x01#8 → decodeCommand ⟨h, o, v⟩ = .pack (h >>> 2).toNat o v) ∧
    (h &&& 0x03#8 = 0x02#8 → decodeCommand ⟨h, o, v⟩ = .unpack (h >>> 2).toNat o) ∧
    (h &&& 0x03#8 = 0x03#8 → decodeCommand ⟨h, o, v⟩ = .reservedOp3)

/-- Words written out bit by bit from 30_encoding.md (R51, R52, R62 to R65) decode to the instructions they stand for, on
the instance of log 2. That a header alone has offset and value 0, and that a record's word is filled with zero bytes, is a
DESIGN CHOICE of the model (log 12). -/
def Obligations.WordsOfTheSpecDecode : Prop :=
  decodeTableWord 8 0b01011100 = some .nop ∧
  decodeTableWord 8 0b01011101 = some (.pack 23 0 0) ∧
  decodeTableWord 8 0b01000110 = some (.unpack 17 0) ∧
  decodeTableWord 8 0b00010111 = some .reservedOp3 ∧
  decodeTableWord 48 0b00000_00000000000001101100101_00000000000010100_010 = some (.load 20 869) ∧
  decodeTableWord 56 0b0000000_00000000000001010101101_00000000000000001101010_011 = some (.write 106 685) ∧
  decodeTableWord 80 0b00000000_00000000000001101000010_00000000000000011000101_00000000000000101000110_110 =
    some (.min 326 197 834) ∧
  decodeTableWord 64 0b00000_00000000000000011001000_00000000000000001100100_0000000101_111 = some (.read 5 100 200)

/-- 30_encoding.md R51, R52, R60 to R68, 42_record_layouts.md R103: for every instruction whose operands fit, in both bit
orders, decoding its words gives it back. -/
def Obligations.DecodeInvertsEncode : Prop :=
  ∀ (P : Params) (i : Instr), P.legal → i.wf P = true → decode P (encode P i) = .ok i

/-- 30_encoding.md R66, R96: the offset of each operand and the bits each format uses, and the general rule behind
them. -/
def Obligations.FieldOffsetsOfTheFormats : Prop :=
  ∀ P : Params,
    (∀ m k, (layout P m).offset k = 3 + ∑ j ∈ Finset.range k, (layout P m).width j) ∧
    (layout P .load).offset 0 = 3 ∧ (layout P .load).offset 1 = 20 ∧ (layout P .load).usedBits = 43 ∧
    (layout P .write).offset 0 = 3 ∧ (layout P .write).offset 1 = 26 ∧ (layout P .write).usedBits = 49 ∧
    (layout P .min).offset 0 = 3 ∧ (layout P .min).offset 1 = 26 ∧ (layout P .min).offset 2 = 49 ∧
      (layout P .min).usedBits = 72 ∧
    (layout P .read).offset 0 = 3 ∧ (layout P .read).offset 1 = 13 ∧ (layout P .read).offset 2 = 36 ∧
      (layout P .read).usedBits = 59

/-- 30_encoding.md R60 to R65, R70: under LSB_FIRST a record decodes by slices of its little-endian number, the tag in bits
2..0 and each operand in the bits its format gives. -/
def Obligations.RecordFieldsAreSlices : Prop :=
  ∀ (P : Params) (S : Memory) (L : Nat), P.bitOrder = .lsbFirst → P.legal →
    (6 ≤ L → slice (leInt S 6) 0 3 = 2 →
      decodeRecord P S 0 L = .ok (.load (slice (leInt S 6) 3 17) (slice (leInt S 6) 20 23))) ∧
    (7 ≤ L → slice (leInt S 7) 0 3 = 3 →
      decodeRecord P S 0 L = .ok (.write (slice (leInt S 7) 3 23) (slice (leInt S 7) 26 23))) ∧
    (P.minRecordBytes ≤ L → slice (leInt S P.minRecordBytes) 0 3 = 6 →
      decodeRecord P S 0 L = .ok (.min (slice (leInt S P.minRecordBytes) 3 23)
        (slice (leInt S P.minRecordBytes) 26 23) (slice (leInt S P.minRecordBytes) 49 23))) ∧
    (8 ≤ L → slice (leInt S 8) 0 3 = 7 →
      decodeRecord P S 0 L = .ok (.read (slice (leInt S 8) 3 10) (slice (leInt S 8) 13 23) (slice (leInt S 8) 36 23)))

/-- 42_record_layouts.md R104, 30_encoding.md R67: streams that agree on the bits a record uses decode the record alike,
whatever its padding holds; and the rule's own example. -/
def Obligations.PaddingBitsAreNotRead : Prop :=
  (∀ (P : Params) (S S' : Memory) (p L : Nat) (m : Kind), Kind.ofTag (tagAt P S p) = some m →
    (∀ k, k < (layout P m).usedBits → streamBit P.bitOrder S (8 * p + k) = streamBit P.bitOrder S' (8 * p + k)) →
    decodeRecord P S' p L = decodeRecord P S p L) ∧
  decode Config.bfc64 (.record (List.replicate 8 0xFF#8)) = .ok (.read 1023 8388607 8388607)

/-! ## Encoding records -/

/-- 42_record_layouts.md R97 against 30_encoding.md R62 to R67, for MSB_FIRST with 20_memory.md R36 and R38: the codec commands of `EncodeRecord` build exactly the
bytes the format draws, `LEN` of them with zero padding, in both bit orders. -/
def Obligations.EncodeRecordBuildsTheFormat : Prop :=
  ∀ (P : Params) (m : Kind) (ops : List Nat), P.legal → opsInRange (layout P m) ops →
    encodeRecord P m ops = .ok (recordBytes P m ops)

/-- 42_record_layouts.md R98 to R101: the PACKs each format encodes with, on zero bytes, and the UNPACKs it decodes
with. -/
def Obligations.RecordsAreTheirCommandSequences : Prop :=
  ∀ (P : Params) (b c d : Nat), P.legal → c < 2 ^ 23 →
    (b < 2 ^ 17 → encodeRecord P .load [b, c] = .ok (Memory.toBytes
      (packBits P.bitOrder (packBits P.bitOrder (packBits P.bitOrder [] 0 3 2) 3 17 b) 20 23 c) 6)) ∧
    (b < 2 ^ 23 → encodeRecord P .write [b, c] = .ok (Memory.toBytes
      (packBits P.bitOrder (packBits P.bitOrder (packBits P.bitOrder [] 0 3 3) 3 23 b) 26 23 c) 7)) ∧
    (b < 2 ^ 23 → d < 2 ^ 23 → encodeRecord P .min [b, c, d] = .ok (Memory.toBytes
      (packBits P.bitOrder (packBits P.bitOrder (packBits P.bitOrder (packBits P.bitOrder [] 0 3 6) 3 23 b) 26 23 c)
        49 23 d) P.minRecordBytes)) ∧
    (b < 2 ^ 10 → d < 2 ^ 23 → encodeRecord P .read [b, c, d] = .ok (Memory.toBytes
      (packBits P.bitOrder (packBits P.bitOrder (packBits P.bitOrder (packBits P.bitOrder [] 0 3 7) 3 10 b) 13 23 c)
        36 23 d) 8)) ∧
    (∀ (S : Memory) (p L : Nat),
      (tagAt P S p = 2 → p + 6 ≤ L → decodeRecord P S p L = .ok (.load
        (unpackBits P.bitOrder S (8 * p + 3) 17) (unpackBits P.bitOrder S (8 * p + 20) 23))) ∧
      (tagAt P S p = 3 → p + 7 ≤ L → decodeRecord P S p L = .ok (.write
        (unpackBits P.bitOrder S (8 * p + 3) 23) (unpackBits P.bitOrder S (8 * p + 26) 23))) ∧
      (tagAt P S p = 6 → p + P.minRecordBytes ≤ L → decodeRecord P S p L = .ok (.min
        (unpackBits P.bitOrder S (8 * p + 3) 23) (unpackBits P.bitOrder S (8 * p + 26) 23)
        (unpackBits P.bitOrder S (8 * p + 49) 23))) ∧
      (tagAt P S p = 7 → p + 8 ≤ L → decodeRecord P S p L = .ok (.read
        (unpackBits P.bitOrder S (8 * p + 3) 10) (unpackBits P.bitOrder S (8 * p + 13) 23)
        (unpackBits P.bitOrder S (8 * p + 36) 23))))

/-- 42_record_layouts.md R97 to R102: a record instruction whose operands fit, run by the encoding procedure, appends its
format's bytes to the program and changes nothing else but the outputs, which are the last PACK's (log 14). -/
def Obligations.RecordInstructionEncodes : Prop :=
  ∀ (i : Instr) (m : Kind) (ops : List Nat) (s : State), i.recordOps = some (m, ops) → s.params.legal →
    i.wf s.params = true → s.procedure = .encoding →
    exec i s = .next { s with
      valueOut := 0, err := false, cause := .none, encoded := s.encoded ++ recordBytes s.params m ops }

/-- 60_exceptions.md R132: a wrong operand count, the tag not counted, is an OperandCountMismatch (code 1) that records the
kind and both counts, whatever the operands hold. That it leaves no bytes is R97; that the run ends is R102;
the field that shows it is emptied by log 9. -/
def Obligations.WrongOperandCountIsReported : Prop :=
  ∀ (s : State) (m : Kind) (ops : List Nat) (rest : List Action) (expected : Nat),
    s.halt = none → s.agenda = .encode m ops :: rest →
    ((m = .load ∨ m = .write) ∧ expected = 2 ∨ (m = .min ∨ m = .read) ∧ expected = 3) → ops.length ≠ expected →
    step s = .next { s with
      agenda := rest, encoded := [], halt := some (.record (.operandCountMismatch m ops.length expected)) } ∧
    (RecordError.operandCountMismatch m ops.length expected).code = 1

/-- 60_exceptions.md R133: the first operand in table order that does not fit its field is an OperandRangeError (code 2)
that records the kind, its 1-based index, its value and its width; the codec reported VALUE on its PACK. That it leaves no
bytes is R97 (log 9); the outputs shown are the failing PACK's (log 14). -/
def Obligations.FirstOperandOutOfRangeIsReported : Prop :=
  ∀ (s : State) (m : Kind) (ops : List Nat) (rest : List Action) (k : Nat), s.params.legal →
    s.halt = none → s.agenda = .encode m ops :: rest →
    ops.length = (layout s.params m).widths.length → k < ops.length →
    (∀ j, j < k → ops.getD j 0 < 2 ^ (layout s.params m).width j) →
    2 ^ (layout s.params m).width k ≤ ops.getD k 0 →
    step s = .next { s with
      agenda := rest, procedure := .encoding, valueOut := 0, err := true, cause := .value, encoded := []
      halt := some (.record (.operandRange m (k + 1) (ops.getD k 0) ((layout s.params m).width k))) } ∧
    (RecordError.operandRange m (k + 1) (ops.getD k 0) ((layout s.params m).width k)).code = 2

/-- 60_exceptions.md R132, R133: the errors of `EncodeRecord` and their data: a wrong operand count, the tag not counted,
whatever the operands hold; else the first operand in table order that does not fit, which is the codec's VALUE on that
field's PACK. -/
def Obligations.EncodeRecordReportsErrors : Prop :=
  ∀ (P : Params) (m : Kind) (ops : List Nat) (arity : Nat), P.legal →
    ((m = .load ∨ m = .write) ∧ arity = 2 ∨ (m = .min ∨ m = .read) ∧ arity = 3) →
    (ops.length ≠ arity →
      encodeRecord P m ops = .error (.operandCountMismatch m ops.length arity) ∧
      (RecordError.operandCountMismatch m ops.length arity).code = 1) ∧
    (ops.length = arity → ∀ k w, k < arity → w = (layout P m).width k →
      (∀ j, j < k → ops.getD j 0 < 2 ^ (layout P m).width j) → 2 ^ w ≤ ops.getD k 0 →
      encodeRecord P m ops = .error (.operandRange m (k + 1) (ops.getD k 0) w) ∧
      (RecordError.operandRange m (k + 1) (ops.getD k 0) w).code = 2 ∧
      check P 1 w ((layout P m).offset k) (ops.getD k 0) (layout P m).len = .value)

/-- 42_record_layouts.md R105: what `EncodeRecord` returns decodes to the same kind and operands, and has the record's
length. -/
def Obligations.RecordRoundTrip : Prop :=
  ∀ (P : Params) (m : Kind) (ops : List Nat) (bytes : List Byte), P.legal → encodeRecord P m ops = .ok bytes →
    ∃ i, decodeRecord P (Memory.ofBytes bytes) 0 bytes.length = .ok i ∧ i.recordOps = some (m, ops) ∧
      bytes.length = (layout P m).len

/-- 42_record_layouts.md R102: the machine's encode of a list of records is `EncodeProgram`: the concatenation of their
bytes, or the first error and no bytes (log 9). -/
def Obligations.MachineEncodesPrograms : Prop :=
  ∀ (lines : List (Kind × List Nat)) (s : State) (rest : List Action), s.halt = none →
    s.agenda = lines.map (fun l => .encode l.1 l.2) ++ rest →
    (∀ bytes, encodeProgram s.params lines = .ok bytes →
      ∃ t, core.run lines.length s = .next t ∧ t.halt = none ∧ t.agenda = rest ∧
        t.encoded = s.encoded ++ bytes ∧ t.mem = s.mem ∧ t.len = s.len ∧ t.p = s.p ∧ t.records = s.records) ∧
    (∀ e, encodeProgram s.params lines = .error e →
      ∃ t, core.run lines.length s = .next t ∧ t.halt = some (.record e) ∧ t.encoded = [])

/-! ## Walking records -/

/-- 42_record_layouts.md R103, R111, R113: a record instruction run by the decoding procedure is taken over at the pointer,
which advances by the record's length, and nothing else changes but the outputs, which are the last UNPACK's (log 14). -/
def Obligations.RecordInstructionIsTakenOver : Prop :=
  ∀ (i : Instr) (m : Kind) (ops : List Nat) (s : State), i.recordOps = some (m, ops) → s.procedure = .decoding →
    exec i s = .next { s with
      valueOut := ops.getLastD 0, err := false, cause := .none, walk := .running
      records := s.records ++ [{ pos := s.p, kind := m, ops := ops }], p := s.p + (layout s.params m).len }

/-- 60_exceptions.md R134, with R136: a record whose tag is 0, 1, 4 or 5 ends the walk with UnknownOpcodeTag (code 3) at its
byte offset, however short the stream is. The outputs shown are those of the tag's UNPACK (log 14). -/
def Obligations.UnknownTagEndsTheWalk : Prop :=
  ∀ (s : State) (a : Action) (rest again : List Action) (tag : Nat), s.halt = none → s.agenda = a :: rest →
    (a = .walkStep ∧ again = rest ∨ a = .walk ∧ again = a :: rest) → s.p < s.len →
    unpackBits s.params.bitOrder s.mem (8 * s.p) 3 = tag → (tag = 0 ∨ tag = 1 ∨ tag = 4 ∨ tag = 5) →
    step s = .next { s with
      agenda := again, valueOut := tag, err := false, cause := .none
      halt := some (.record (.unknownOpcodeTag s.p tag)) } ∧
    (RecordError.unknownOpcodeTag s.p tag).code = 3

/-- 60_exceptions.md R135, 42_record_layouts.md R109: a record with a known tag that needs more bytes than are left ends
the walk with TruncatedProgram (code 4), with the bytes needed and available. The outputs shown are those of the tag's UNPACK
(log 14). -/
def Obligations.TruncatedRecordEndsTheWalk : Prop :=
  ∀ (s : State) (a : Action) (rest again : List Action) (tag n : Nat), s.halt = none → s.agenda = a :: rest →
    (a = .walkStep ∧ again = rest ∨ a = .walk ∧ again = a :: rest) → s.p < s.len →
    unpackBits s.params.bitOrder s.mem (8 * s.p) 3 = tag →
    (tag = 2 ∧ n = 6 ∨ tag = 3 ∧ n = 7 ∨ tag = 6 ∧ n = s.params.minRecordBytes ∨ tag = 7 ∧ n = 8) →
    s.len < s.p + n →
    step s = .next { s with
      agenda := again, valueOut := tag, err := false, cause := .none
      halt := some (.record (.truncatedProgram s.p tag n (s.len - s.p))) } ∧
    (RecordError.truncatedProgram s.p tag n (s.len - s.p)).code = 4

/-- 60_exceptions.md R134, R135: the errors of `DecodeRecord` and their data, the tag before the length (R136). -/
def Obligations.DecodeRecordReportsErrors : Prop :=
  ∀ (P : Params) (S : Memory) (p L t n : Nat), p < L → unpackBits P.bitOrder S (8 * p) 3 = t →
    ((t = 0 ∨ t = 1 ∨ t = 4 ∨ t = 5) →
      decodeRecord P S p L = .error (.unknownOpcodeTag p t) ∧ (RecordError.unknownOpcodeTag p t).code = 3) ∧
    ((t = 2 ∧ n = 6 ∨ t = 3 ∧ n = 7 ∨ t = 6 ∧ n = P.minRecordBytes ∨ t = 7 ∧ n = 8) → L < p + n →
      decodeRecord P S p L = .error (.truncatedProgram p t n (L - p)) ∧
      (RecordError.truncatedProgram p t n (L - p)).code = 4)

/-- 42_record_layouts.md R112: a walk becomes Done at the loop test exactly when the pointer stands at the stream's end, an
empty stream's at once. -/
def Obligations.WalkIsDoneExactlyAtTheEnd : Prop :=
  ∀ (s : State) (a : Action) (rest : List Action), s.halt = none → s.agenda = a :: rest →
    (a = .walkStep ∨ a = .walk) →
    (s.p = s.len → step s = .next { s with agenda := rest, walk := .done }) ∧
    (∀ t, step s = .next t → t.walk = .done → s.walk ≠ .done → s.p = s.len)

/-- 42_record_layouts.md R110: a record presented as a stream of its own, with offsets from its start, decodes to the same
instruction. -/
def Obligations.RecordDecodesAsItsOwnStream : Prop :=
  ∀ (P : Params) (S S' : Memory) (p L : Nat) (i : Instr) (m : Kind) (ops : List Nat), P.legal →
    decodeRecord P S p L = .ok i →
    i.recordOps = some (m, ops) → (∀ j, j < (layout P m).len → S'.read j = S.read (p + j)) →
    decodeRecord P S' 0 (layout P m).len = .ok i

/-- 42_record_layouts.md R112: a walk that goes on until it is Done ends, after at most one turn for every 6 bytes left and
one more, Done at the end of the stream or with a record error. -/
def Obligations.WalkTerminates : Prop :=
  ∀ (s : State) (rest : List Action), Inv s → s.halt = none → s.agenda = .walk :: rest →
    ∃ n t, n ≤ (s.len - s.p) / 6 + 1 ∧ core.run n s = .next t ∧
      (t.halt = none ∧ t.walk = .done ∧ t.p = t.len ∧ t.agenda = rest ∨ ∃ e, t.halt = some (.record e))

/-- 42_record_layouts.md R102, R105, R113 together: the machine encodes a program of records, presents the bytes and walks
them to Done, with exactly the records encoded, in order, each where the one before it ends. -/
def Obligations.EncodedProgramWalksBack : Prop :=
  ∀ (lines : List (Kind × List Nat)) (bytes : List Byte) (s : State) (rest : List Action), s.params.legal →
    encodeProgram s.params lines = .ok bytes → s.halt = none →
    s.agenda = .startEncode :: (lines.map (fun l => .encode l.1 l.2) ++ .presentEncoded :: .startWalk :: .walk :: rest) →
    ∃ t, core.run (2 * lines.length + 4) s = .next t ∧ t.halt = none ∧ t.walk = .done ∧ t.agenda = rest ∧
      t.p = bytes.length ∧ t.len = bytes.length ∧
      t.records.map (fun r => (r.kind, r.ops)) = lines ∧ contiguous s.params 0 t.records bytes.length

/-! ## The whole machine -/

/-- A step that presents a command bundle runs the command it decodes to, with the bundle taken off the agenda. -/
def Obligations.StepRunsThePresentedCommand : Prop :=
  ∀ (s : State) (b : Bundle) (rest : List Action), s.halt = none → s.agenda = .command b :: rest →
    step s = exec (decodeCommand b) { s with agenda := rest }

/-- A step of a walk runs the record its bytes at the pointer decode to, and a step of an encode runs the record it is
given, each by its own procedure (log 8). -/
def Obligations.StepRunsTheRecord : Prop :=
  ∀ (s : State) (a : Action) (rest : List Action) (i : Instr), s.halt = none → s.agenda = a :: rest →
    (∀ again, (a = .walkStep ∧ again = rest ∨ a = .walk ∧ again = a :: rest) → s.p < s.len →
      decodeRecord s.params s.mem s.p s.len = .ok i →
      step s = exec i { s with agenda := again, procedure := .decoding }) ∧
    (∀ m ops, a = .encode m ops → i.recordOps = some (m, ops) →
      step s = exec i { s with agenda := rest, procedure := .encoding })

/-- 41_codec_ops.md R74, R81: every instruction answers a next state in every state. -/
def Obligations.EveryInstructionAnswers : Prop :=
  ∀ (i : Instr) (s : State), ∃ t, exec i s = .next t

/-- 42_record_layouts.md R114: stepping through the commands of a host sequence ends as `Run` does, Finished or Stopped at
the first error, with its stream and its values. After an early error the steps left change nothing: a DESIGN CHOICE of the
model (log 6). -/
def Obligations.MachineRunsHostSequences : Prop :=
  ∀ (cmds : List Bundle) (s : State), s.halt = none → s.agenda = cmds.map .command →
    ∃ t, core.run cmds.length s = .next t ∧
      t.result = some (runCommands s.params s.len cmds s.index s.mem s.vals)

/-- 42_record_layouts.md R114, 60_exceptions.md R131: a run that was stopped, or has nothing left to do, stays as it is (a
DESIGN CHOICE of the model, log 6). -/
def Obligations.EndedRunStays : Prop :=
  ∀ (s : State) (n : Nat), s.ended → core.run n s = .next s

/-- 42_record_layouts.md R111, R106: a step moves the pointer only past a record it takes over, by the length of the record
at the pointer, or back to 0 where a stream is presented or a walk starts (the former is log 10). -/
def Obligations.OnlyTheWalkOrPresentingMovesThePointer : Prop :=
  ∀ (s t : State), step s = .next t → t.p ≠ s.p →
    (t.p = 0 ∧ ∃ a rest, s.agenda = a :: rest ∧
      ((∃ bytes n, a = .present bytes n) ∨ a = .presentEncoded ∨ a = .startWalk)) ∨
    (∃ m, Kind.ofTag (tagAt s.params s.mem s.p) = some m ∧ t.p = s.p + (layout s.params m).len ∧
      (∃ a rest, s.agenda = a :: rest ∧ (a = .walkStep ∨ a = .walk)))

/-- 20_memory.md R45, R49, 42_record_layouts.md R110: a step changes the stream or its length only where the host presents
a stream or a PACK; a walk and an encode never do. -/
def Obligations.OnlyPackOrPresentingChangesTheStream : Prop :=
  ∀ (s t : State), step s = .next t → (t.mem ≠ s.mem ∨ t.len ≠ s.len) →
    ∃ a rest, s.agenda = a :: rest ∧
      ((∃ bytes n, a = .present bytes n) ∨ a = .presentEncoded ∨ (∃ b, a = .command b ∧ b.op = 1 ∧ t.len = s.len))

/-- 20_memory.md R40, 00_scope.md R3: no step changes the bit order or any other parameter. -/
def Obligations.ParametersAreFixed : Prop :=
  ∀ (s t : State) (n : Nat), core.run n s = .next t → t.params = s.params

/-- Every step keeps a safe state safe: the canonical form of the stream, `0 <= p <= L` (42_record_layouts.md R106), `err`
and `cause` agreeing (10_state.md R25), values within their port (R23), records without gaps (30_encoding.md R69) and
operands within their fields (R70). -/
def Obligations.StepKeepsTheInvariant : Prop :=
  ∀ (s t : State), Inv s → step s = .next t → Inv t

/-- The state after reset is safe; the values it gives the outputs, the stream and the open parameters are the model's own
(log 2, 3, 4, 5). -/
def Obligations.ResetIsSafe : Prop :=
  Inv State.reset ∧ State.reset.p = 0

/-- A walk starts at byte 0 with no records (10_state.md R31, 42_record_layouts.md R106). -/
def Obligations.WalkStartsAtZero : Prop :=
  ∀ (s : State) (rest : List Action), s.halt = none → s.agenda = .startWalk :: rest →
    step s = .next { s with agenda := rest, p := 0, records := [], walk := .running }

/-- From a safe state no run is ever stopped by a fault or a refusal, however long it goes on. -/
def Obligations.SafeRunsNeverStop : Prop :=
  ∀ (s : State) (n : Nat), Inv s → ∃ t, core.run n s = .next t
end

