-- ==== Sys2Proof/Laws/Memory.lean ====
section
/-! SUPPORT. The laws of a stream's bytes: read after write, the canonical form, and equality of canonical memories. -/

namespace Sys2Proof.Memory

theorem read_cons (a' : Nat) (b' : Byte) (m : Memory) (a : Nat) :
    read ((a', b') :: m) a = if a' = a then b' else read m a := rfl

theorem not_mem_erase (m : Memory) (a : Nat) : ∀ e ∈ m.erase a, e.1 ≠ a := by
  induction m with
  | nil => simp [erase]
  | cons e m ih =>
    obtain ⟨a', b'⟩ := e
    by_cases h : a' = a
    · simpa [erase, h] using ih
    · simpa [erase, h] using ih

theorem read_erase (m : Memory) (a a' : Nat) :
    (m.erase a).read a' = if a' = a then unlisted else m.read a' := by
  induction m with
  | nil => simp [erase, read]
  | cons e m ih =>
    obtain ⟨x, y⟩ := e
    by_cases h : x = a
    · subst h
      by_cases h' : a' = x
      · subst h'; simpa [erase] using ih
      · simp [erase, ih, h', read_cons, Ne.symm h']
    · by_cases h' : x = a'
      · subst h'; simp [erase, h, read_cons]
      · simp [erase, h, read_cons, h', ih]

theorem read_insert_self (m : Memory) (a : Nat) (b : Byte) (h : ∀ e ∈ m, e.1 ≠ a) :
    (m.insert a b).read a = b := by
  induction m with
  | nil => simp [insert, read_cons]
  | cons e m ih =>
    obtain ⟨x, y⟩ := e
    have hx : x ≠ a := h (x, y) (by simp)
    by_cases hlt : a < x
    · simp [insert, hlt, read_cons]
    · simp [insert, hlt, read_cons, hx, ih fun e he => h e (by simp [he])]

theorem read_insert_other (m : Memory) {a a' : Nat} (b : Byte) (h : a' ≠ a) :
    (m.insert a b).read a' = m.read a' := by
  induction m with
  | nil => simp [insert, read_cons, read, Ne.symm h]
  | cons e m ih =>
    obtain ⟨x, y⟩ := e
    by_cases hlt : a < x
    · simp [insert, hlt, read_cons, Ne.symm h]
    · simp [insert, hlt, read_cons, ih]

/-- `MemWrite` (R6): the byte written reads back, every other byte is as before. -/
theorem read_write (m : Memory) (a : Nat) (b : Byte) (a' : Nat) :
    (m.write a b).read a' = if a' = a then b else m.read a' := by
  unfold write
  by_cases hb : b = unlisted
  · simp [hb, read_erase]
  · by_cases h : a' = a
    · subst h; simp [hb, read_insert_self _ _ _ (not_mem_erase m a')]
    · simp [hb, h, read_insert_other _ _ h, read_erase]

/-! ## The canonical form -/

theorem wfFrom_cons {lo a : Nat} {b : Byte} {m : Memory} :
    wfFrom lo ((a, b) :: m) = true ↔ lo ≤ a ∧ b ≠ unlisted ∧ wfFrom (a + 1) m = true := by
  simp [wfFrom, and_assoc]

theorem wfFrom_mono {lo lo' : Nat} {m : Memory} (hle : lo' ≤ lo) (h : wfFrom lo m = true) : wfFrom lo' m = true := by
  cases m with
  | nil => rfl
  | cons e m => rw [wfFrom_cons] at h ⊢; exact ⟨hle.trans h.1, h.2⟩

theorem wfFrom_erase {lo : Nat} {m : Memory} (a : Nat) (h : wfFrom lo m = true) : wfFrom lo (m.erase a) = true := by
  induction m generalizing lo with
  | nil => rfl
  | cons e m ih =>
    rw [wfFrom_cons] at h
    by_cases hx : e.1 = a
    · simpa [erase, hx] using ih (wfFrom_mono (by omega) h.2.2)
    · simp only [erase, hx, if_false]
      exact wfFrom_cons.2 ⟨h.1, h.2.1, ih h.2.2⟩

theorem wfFrom_insert {lo : Nat} {m : Memory} {a : Nat} {b : Byte} (hlo : lo ≤ a) (hb : b ≠ unlisted)
    (hne : ∀ e ∈ m, e.1 ≠ a) (h : wfFrom lo m = true) : wfFrom lo (m.insert a b) = true := by
  induction m generalizing lo with
  | nil => exact wfFrom_cons.2 ⟨hlo, hb, rfl⟩
  | cons e m ih =>
    rw [wfFrom_cons] at h
    have hx : e.1 ≠ a := hne e (by simp)
    by_cases hlt : a < e.1
    · simp only [insert, hlt, if_true, wfFrom_cons]
      exact ⟨hlo, hb, by omega, h.2⟩
    · simp only [insert, hlt, if_false, wfFrom_cons]
      exact ⟨h.1, h.2.1, ih (by omega) (fun e he => hne e (by simp [he])) h.2.2⟩

theorem wf_write {m : Memory} (a : Nat) (b : Byte) (h : m.wf = true) : (m.write a b).wf = true := by
  unfold write
  split
  · exact wfFrom_erase a h
  · exact wfFrom_insert (Nat.zero_le a) ‹_› (not_mem_erase m a) (wfFrom_erase a h)

theorem wfFrom_ofBytesFrom (bytes : List Byte) (a : Nat) : wfFrom a (ofBytesFrom a bytes) = true := by
  induction bytes generalizing a with
  | nil => rfl
  | cons b bytes ih =>
    unfold ofBytesFrom
    split
    · exact wfFrom_mono (Nat.le_succ a) (ih (a + 1))
    · exact wfFrom_cons.2 ⟨le_rfl, ‹_›, ih (a + 1)⟩

theorem wf_ofBytes (bytes : List Byte) : (ofBytes bytes).wf = true := wfFrom_ofBytesFrom bytes 0

theorem read_below {lo : Nat} {m : Memory} (h : wfFrom lo m = true) {a : Nat} (ha : a < lo) : m.read a = unlisted := by
  induction m generalizing lo with
  | nil => rfl
  | cons e m ih =>
    rw [wfFrom_cons] at h
    rw [read_cons, if_neg (by omega)]
    exact ih h.2.2 (by omega)

theorem eq_of_read_eq_from {lo : Nat} {m m' : Memory} (h : wfFrom lo m = true) (h' : wfFrom lo m' = true)
    (hr : ∀ a, m.read a = m'.read a) : m = m' := by
  induction m generalizing lo m' with
  | nil =>
    cases m' with
    | nil => rfl
    | cons e m' => exact absurd (by simpa [read_cons, read] using (hr e.1).symm) (wfFrom_cons.1 h').2.1
  | cons e m ih =>
    obtain ⟨a, b⟩ := e
    cases m' with
    | nil => exact absurd (by simpa [read_cons, read] using hr a) (wfFrom_cons.1 h).2.1
    | cons e' m' =>
      obtain ⟨a', b'⟩ := e'
      rw [wfFrom_cons] at h h'
      have haa : a = a' := by
        rcases lt_trichotomy a a' with hlt | heq | hlt
        · have := hr a
          rw [read_cons, if_pos rfl, read_cons, if_neg (by omega), read_below h'.2.2 (by omega)] at this
          exact absurd this h.2.1
        · exact heq
        · have := hr a'
          rw [read_cons, if_neg (by omega), read_cons, if_pos rfl, read_below h.2.2 (by omega)] at this
          exact absurd this.symm h'.2.1
      subst haa
      have hbb : b = b' := by simpa [read_cons] using hr a
      subst hbb
      refine congrArg _ (ih h.2.2 h'.2.2 fun x => ?_)
      by_cases hx : a = x
      · subst hx; rw [read_below h.2.2 (by omega), read_below h'.2.2 (by omega)]
      · simpa [read_cons, hx] using hr x

/-- Two canonical memories that read alike are equal data. -/
theorem eq_of_read_eq {m m' : Memory} (h : m.wf = true) (h' : m'.wf = true) (hr : ∀ a, m.read a = m'.read a) : m = m' :=
  eq_of_read_eq_from h h' hr

/-! ## Sequences of bytes -/

theorem read_ofBytesFrom (bytes : List Byte) (a i : Nat) :
    (ofBytesFrom a bytes).read i = if i < a then unlisted else bytes.getD (i - a) unlisted := by
  induction bytes generalizing a with
  | nil => simp [ofBytesFrom, read]
  | cons b bytes ih =>
    have key : (ofBytesFrom a (b :: bytes)).read i = if a = i then b else (ofBytesFrom (a + 1) bytes).read i := by
      rw [ofBytesFrom]
      split
      · by_cases h : a = i
        · subst h; rw [read_below (wfFrom_ofBytesFrom bytes (a + 1)) (by omega), if_pos rfl]; exact ‹b = _›.symm
        · rw [if_neg h]
      · exact read_cons ..
    rw [key, ih]
    rcases lt_trichotomy i a with h | h | h
    · simp [h, Nat.ne_of_gt h, Nat.lt_succ_of_lt h]
    · subst h; simp
    · obtain ⟨d, rfl⟩ := Nat.exists_eq_add_of_lt h
      simp [show ¬ a + d + 1 < a + 1 by omega, show ¬ a + d + 1 < a by omega, show a ≠ a + d + 1 by omega,
        show a + d + 1 - a = d + 1 by omega, show a + d + 1 - (a + 1) = d by omega]

theorem read_ofBytes (bytes : List Byte) (i : Nat) : (ofBytes bytes).read i = bytes.getD i unlisted := by
  simp [ofBytes, read_ofBytesFrom]

@[simp] theorem length_toBytes (m : Memory) (n : Nat) : (m.toBytes n).length = n := by simp [toBytes]

theorem read_ofBytes_toBytes (m : Memory) (n i : Nat) :
    (ofBytes (m.toBytes n)).read i = if i < n then m.read i else unlisted := by
  rw [read_ofBytes]
  by_cases h : i < n
  · simp [toBytes, h]
  · simp [toBytes, h]

end Sys2Proof.Memory
end

