-- ==== Sys2Proof/Laws/Codec.lean ====
section
/-! SUPPORT. The laws of stream bits and bit-fields, bit by bit, in both bit orders. -/

namespace Sys2Proof

/-! ## Bits of a byte and of a stream -/

theorem getLsbD_setByteBit (b : Byte) {i n : Nat} (x : Bool) (hi : i < 8) (hn : n < 8) :
    (setByteBit b i x).getLsbD n = if n = i then x else b.getLsbD n := by
  unfold setByteBit
  by_cases h : n = i
  · subst h; simp [hn]
  · by_cases hlt : n < i
    · simp [hn, h, hlt]
    · simp [hn, h, hlt, show n - i ≠ 0 by omega]

theorem bitIndex_lt (order : BitOrder) (k : Nat) : bitIndex order k < 8 := by
  cases order <;> simp only [bitIndex] <;> omega

theorem eq_of_same_bit {order : BitOrder} {k k' : Nat} (hd : k / 8 = k' / 8)
    (hi : bitIndex order k = bitIndex order k') : k = k' := by
  cases order <;> simp only [bitIndex] at hi <;> omega

/-- `SetStreamBit` (20_memory.md R34, R36): the bit set reads back, every other bit is as before. -/
theorem streamBit_setStreamBit (order : BitOrder) (S : Memory) (k : Nat) (x : Bool) (k' : Nat) :
    streamBit order (setStreamBit order S k x) k' = if k' = k then x else streamBit order S k' := by
  unfold streamBit setStreamBit
  rw [Memory.read_write]
  by_cases hb : k' / 8 = k / 8
  · rw [if_pos hb, getLsbD_setByteBit _ _ (bitIndex_lt ..) (bitIndex_lt ..), hb]
    by_cases h : k' = k
    · subst h; simp
    · rw [if_neg fun hi => h (eq_of_same_bit hb hi), if_neg h]
  · rw [if_neg hb, if_neg (by rintro rfl; exact hb rfl)]

theorem read_setStreamBit (order : BitOrder) (S : Memory) (k : Nat) (x : Bool) {a : Nat} (h : a ≠ k / 8) :
    (setStreamBit order S k x).read a = S.read a := by
  rw [setStreamBit, Memory.read_write, if_neg h]

theorem wf_setStreamBit (order : BitOrder) {S : Memory} (k : Nat) (x : Bool) (h : S.wf = true) :
    (setStreamBit order S k x).wf = true := Memory.wf_write _ _ h

/-- The stream bit at which bit `i` of byte `a` stands. -/
theorem streamBit_of_byte (order : BitOrder) (S : Memory) (a : Nat) {i : Nat} (hi : i < 8) :
    streamBit order S (8 * a + bitIndex order i) = (S.read a).getLsbD i := by
  cases order <;> simp only [streamBit, bitIndex] <;> congr 2 <;> omega

/-- Streams with the same bits have the same bytes. -/
theorem read_eq_of_streamBit_eq {order : BitOrder} {S S' : Memory} {a : Nat}
    (h : ∀ k, k / 8 = a → streamBit order S k = streamBit order S' k) : S.read a = S'.read a := by
  apply BitVec.eq_of_getLsbD_eq
  intro i hi
  have hb := bitIndex_lt order i
  simpa [streamBit_of_byte _ _ _ hi] using h (8 * a + bitIndex order i) (by omega)

/-! ## PACK -/

theorem streamBit_packLoop (order : BitOrder) (S : Memory) (o w v n k : Nat) :
    streamBit order (packLoop order S o w v n) k =
      if o ≤ k ∧ k < o + n then v.testBit (valueIndex order w (k - o)) else streamBit order S k := by
  induction n with
  | zero => rw [packLoop, if_neg (by omega)]
  | succ n ih =>
    rw [packLoop, streamBit_setStreamBit, ih]
    by_cases h : k = o + n
    · subst h; simp
    · rw [if_neg h]
      exact if_congr (by omega) rfl rfl

/-- What PACK leaves in every stream bit (R35, R76, R85). -/
theorem streamBit_packBits (order : BitOrder) (S : Memory) (o w v k : Nat) :
    streamBit order (packBits order S o w v) k =
      if o ≤ k ∧ k < o + w then v.testBit (valueIndex order w (k - o)) else streamBit order S k :=
  streamBit_packLoop order S o w v w k

/-- PACK leaves every byte that none of its field's bits stands in (20_memory.md R43). -/
theorem read_packBits_outside (order : BitOrder) (S : Memory) {o w a : Nat} (v : Nat)
    (h : ∀ k, o ≤ k → k < o + w → k / 8 ≠ a) : (packBits order S o w v).read a = S.read a :=
  read_eq_of_streamBit_eq (order := order) fun k hk => by
    rw [streamBit_packBits, if_neg fun hf => h k hf.1 hf.2 hk]

theorem wf_packLoop (order : BitOrder) {S : Memory} (o w v n : Nat) (h : S.wf = true) :
    (packLoop order S o w v n).wf = true := by
  induction n with
  | zero => exact h
  | succ n ih => exact wf_setStreamBit _ _ _ ih

theorem wf_packBits (order : BitOrder) {S : Memory} (o w v : Nat) (h : S.wf = true) :
    (packBits order S o w v).wf = true := wf_packLoop order o w v w h

/-- Two streams that agree on every bit outside a field, one of them packed there: the bytes decide. -/
theorem packBits_eq_of_bits {order : BitOrder} {S S' : Memory} (h : S.wf = true) (h' : S'.wf = true)
    (hb : ∀ k, streamBit order S k = streamBit order S' k) : S = S' :=
  Memory.eq_of_read_eq h h' fun _ => read_eq_of_streamBit_eq (order := order) fun k _ => hb k

/-! ## UNPACK -/

theorem valueIndex_valueIndex (order : BitOrder) {w j : Nat} (h : j < w) :
    valueIndex order w (valueIndex order w j) = j := by
  cases order with
  | lsbFirst => rfl
  | msbFirst => simp only [valueIndex]; omega

theorem valueIndex_lt (order : BitOrder) {w j : Nat} (h : j < w) : valueIndex order w j < w := by
  cases order <;> (simp only [valueIndex]; omega)

/-- Numbers without a common bit add without a carry. -/
theorem add_eq_or_of_and_eq_zero {x y : Nat} (h : x &&& y = 0) : x + y = x ||| y := by
  have hlt : x + y < 2 ^ (x + y) := Nat.lt_two_pow_self
  have key := congrArg BitVec.toNat
    (BitVec.add_eq_or_of_and_eq_zero (BitVec.ofNat (x + y) x) (BitVec.ofNat (x + y) y)
      (by rw [← BitVec.ofNat_and, h]))
  simpa [Nat.mod_eq_of_lt hlt, Nat.mod_eq_of_lt (show x < 2 ^ (x + y) by omega),
    Nat.mod_eq_of_lt (show y < 2 ^ (x + y) by omega)] using key

theorem testBit_add_two_pow {x i : Nat} (h : x.testBit i = false) (b : Bool) (j : Nat) :
    (x + b.toNat * 2 ^ i).testBit j = if j = i then b else x.testBit j := by
  have hand : x &&& b.toNat * 2 ^ i = 0 := by
    apply Nat.eq_of_testBit_eq
    intro k
    cases b with
    | false => simp
    | true =>
      by_cases hk : i = k
      · subst hk; simp [h]
      · simp [hk]
  rw [add_eq_or_of_and_eq_zero hand, Nat.testBit_or]
  cases b with
  | false => by_cases hj : j = i <;> simp [hj, h]
  | true =>
    by_cases hj : j = i
    · subst hj; simp
    · simp [hj, Ne.symm hj]

theorem testBit_unpackLoop (order : BitOrder) (S : Memory) (o w n : Nat) (hn : n ≤ w) (i : Nat) :
    (unpackLoop order S o w n).testBit i =
      (decide (i < w) && decide (valueIndex order w i < n) && streamBit order S (o + valueIndex order w i)) := by
  induction n generalizing i with
  | zero => simp [unpackLoop]
  | succ n ih =>
    have hvv := valueIndex_valueIndex order (show n < w by omega)
    have hfree : (unpackLoop order S o w n).testBit (valueIndex order w n) = false := by
      rw [ih (by omega), hvv]; simp
    rw [unpackLoop, testBit_add_two_pow hfree, ih (by omega)]
    by_cases hi : i = valueIndex order w n
    · subst hi; simp [hvv, valueIndex_lt order (show n < w by omega)]
    · rw [if_neg hi]
      by_cases hw : i < w
      · have hne : valueIndex order w i ≠ n := fun h => hi (by rw [← h, valueIndex_valueIndex order hw])
        simp [hw, show valueIndex order w i < n + 1 ↔ valueIndex order w i < n by omega]
      · simp [hw]

/-- What UNPACK reads, bit by bit (R35, R77). -/
theorem testBit_unpackBits (order : BitOrder) (S : Memory) (o w i : Nat) :
    (unpackBits order S o w).testBit i =
      (decide (i < w) && streamBit order S (o + valueIndex order w i)) := by
  rw [unpackBits, testBit_unpackLoop _ _ _ _ _ le_rfl]
  by_cases h : i < w
  · simp [h, valueIndex_lt order h]
  · simp [h]

/-- The value unpacked fits its width (R77: bits above `w - 1` are 0). -/
theorem unpackBits_lt (order : BitOrder) (S : Memory) (o w : Nat) : unpackBits order S o w < 2 ^ w := by
  apply Nat.lt_pow_two_of_testBit
  intro i hi
  simp [testBit_unpackBits, Nat.not_lt.2 hi]

/-- UNPACK sees the bits of its field only (R77). -/
theorem unpackBits_congr {order : BitOrder} {S S' : Memory} {o o' w : Nat}
    (h : ∀ j, j < w → streamBit order S (o + j) = streamBit order S' (o' + j)) :
    unpackBits order S o w = unpackBits order S' o' w := by
  apply Nat.eq_of_testBit_eq
  intro i
  rw [testBit_unpackBits, testBit_unpackBits]
  by_cases hi : i < w
  · simp [hi, h _ (valueIndex_lt order hi)]
  · simp [hi]

/-- A field reads back the value packed there (R84). -/
theorem unpackBits_packBits (order : BitOrder) (S : Memory) {o w v : Nat} (hv : v < 2 ^ w) :
    unpackBits order (packBits order S o w v) o w = v := by
  apply Nat.eq_of_testBit_eq
  intro i
  rw [testBit_unpackBits, streamBit_packBits]
  by_cases hi : i < w
  · simp [hi, valueIndex_lt order hi, valueIndex_valueIndex order hi]
  · simp [hi, Nat.testBit_lt_two_pow (hv.trans_le (Nat.pow_le_pow_right two_pos (Nat.not_lt.1 hi)))]

/-- A field apart from the packed one reads as before (R85). -/
theorem unpackBits_packBits_of_disjoint (order : BitOrder) (S : Memory) {o w o' w' : Nat} (v : Nat)
    (h : o' + w' ≤ o ∨ o + w ≤ o') :
    unpackBits order (packBits order S o w v) o' w' = unpackBits order S o' w' :=
  unpackBits_congr fun j hj => by rw [streamBit_packBits, if_neg (by omega)]

/-! ## Integer views -/

theorem testBit_byte (b : Byte) (i : Nat) : b.toNat.testBit i = b.getLsbD i := rfl

theorem leInt_lt (S : Memory) (L : Nat) : leInt S L < 2 ^ (8 * L) := by
  induction L with
  | zero => simp [leInt]
  | succ n ih =>
    have hb : (S.read n).toNat < 2 ^ 8 := (S.read n).isLt
    rw [leInt, Nat.mul_succ, Nat.pow_add]
    nlinarith

/-- `StreamBit(S, k) = N(S)[k]` (R37), at every `k`. -/
theorem testBit_leInt (S : Memory) (L k : Nat) :
    (leInt S L).testBit k = (decide (k < 8 * L) && streamBit .lsbFirst S k) := by
  induction L with
  | zero => simp [leInt]
  | succ n ih =>
    rw [leInt, Nat.mul_comm (S.read n).toNat, Nat.add_comm, Nat.testBit_two_pow_mul_add _ (leInt_lt S n), ih]
    by_cases h : k < 8 * n
    · simp [h, show k < 8 * (n + 1) by omega]
    · rw [if_neg h, testBit_byte]
      by_cases h' : k < 8 * (n + 1)
      · have hk : k / 8 = n := by omega
        have hm : k % 8 = k - 8 * n := by omega
        simp [h', streamBit, bitIndex, hk, hm]
      · simp [h', BitVec.getLsbD_of_ge _ _ (show 8 ≤ k - 8 * n by omega)]

theorem beInt_lt (S : Memory) (L : Nat) : beInt S L < 2 ^ (8 * L) := by
  induction L with
  | zero => simp [beInt]
  | succ n ih =>
    have hb : (S.read n).toNat < 2 ^ 8 := (S.read n).isLt
    rw [beInt, Nat.mul_succ, Nat.pow_add]
    nlinarith

/-- `StreamBit(S, k) = B(S)[8L-1-k]` (R38), by the bit of the number. -/
theorem testBit_beInt (S : Memory) (L i : Nat) :
    (beInt S L).testBit i = (decide (i < 8 * L) && streamBit .msbFirst S (8 * L - 1 - i)) := by
  induction L generalizing i with
  | zero => simp [beInt]
  | succ n ih =>
    rw [beInt, Nat.mul_comm, Nat.testBit_two_pow_mul_add _ (S.read n).isLt, ih, testBit_byte]
    by_cases h : i < 8
    · have hd : (8 * (n + 1) - 1 - i) / 8 = n := by omega
      have hm : 7 - (8 * (n + 1) - 1 - i) % 8 = i := by omega
      simp [h, show i < 8 * (n + 1) by omega, streamBit, bitIndex, hd, hm]
    · simp [h, show i - 8 < 8 * n ↔ i < 8 * (n + 1) by omega,
        show 8 * n - 1 - (i - 8) = 8 * (n + 1) - 1 - i by omega]

end Sys2Proof
end

