-- ==== Sys2Proof/Laws/State.lean ====
section
/-! SUPPORT. Every field after every update of the state (Machine/Ops.lean). -/

namespace Sys2Proof.Machine

variable (s : State)

@[simp] theorem State.withOutputs_params (v : Nat) (e : Bool) (c : Cause) : (s.withOutputs v e c).params = s.params := rfl
@[simp] theorem State.withOutputs_mem (v : Nat) (e : Bool) (c : Cause) : (s.withOutputs v e c).mem = s.mem := rfl
@[simp] theorem State.withOutputs_len (v : Nat) (e : Bool) (c : Cause) : (s.withOutputs v e c).len = s.len := rfl
@[simp] theorem State.withOutputs_valueOut (v : Nat) (e : Bool) (c : Cause) : (s.withOutputs v e c).valueOut = v := rfl
@[simp] theorem State.withOutputs_err (v : Nat) (e : Bool) (c : Cause) : (s.withOutputs v e c).err = e := rfl
@[simp] theorem State.withOutputs_cause (v : Nat) (e : Bool) (c : Cause) : (s.withOutputs v e c).cause = c := rfl
@[simp] theorem State.withOutputs_p (v : Nat) (e : Bool) (c : Cause) : (s.withOutputs v e c).p = s.p := rfl
@[simp] theorem State.withOutputs_records (v : Nat) (e : Bool) (c : Cause) : (s.withOutputs v e c).records = s.records := rfl
@[simp] theorem State.withOutputs_walk (v : Nat) (e : Bool) (c : Cause) : (s.withOutputs v e c).walk = s.walk := rfl
@[simp] theorem State.withOutputs_encoded (v : Nat) (e : Bool) (c : Cause) : (s.withOutputs v e c).encoded = s.encoded := rfl
@[simp] theorem State.withOutputs_index (v : Nat) (e : Bool) (c : Cause) : (s.withOutputs v e c).index = s.index := rfl
@[simp] theorem State.withOutputs_vals (v : Nat) (e : Bool) (c : Cause) : (s.withOutputs v e c).vals = s.vals := rfl
@[simp] theorem State.withOutputs_halt (v : Nat) (e : Bool) (c : Cause) : (s.withOutputs v e c).halt = s.halt := rfl
@[simp] theorem State.withOutputs_agenda (v : Nat) (e : Bool) (c : Cause) : (s.withOutputs v e c).agenda = s.agenda := rfl
@[simp] theorem State.withOutputs_procedure (v : Nat) (e : Bool) (c : Cause) : (s.withOutputs v e c).procedure = s.procedure := rfl

@[simp] theorem State.withStream_params (S : Memory) : (s.withStream S).params = s.params := rfl
@[simp] theorem State.withStream_mem (S : Memory) : (s.withStream S).mem = S := rfl
@[simp] theorem State.withStream_len (S : Memory) : (s.withStream S).len = s.len := rfl
@[simp] theorem State.withStream_valueOut (S : Memory) : (s.withStream S).valueOut = s.valueOut := rfl
@[simp] theorem State.withStream_err (S : Memory) : (s.withStream S).err = s.err := rfl
@[simp] theorem State.withStream_cause (S : Memory) : (s.withStream S).cause = s.cause := rfl
@[simp] theorem State.withStream_p (S : Memory) : (s.withStream S).p = s.p := rfl
@[simp] theorem State.withStream_records (S : Memory) : (s.withStream S).records = s.records := rfl
@[simp] theorem State.withStream_walk (S : Memory) : (s.withStream S).walk = s.walk := rfl
@[simp] theorem State.withStream_encoded (S : Memory) : (s.withStream S).encoded = s.encoded := rfl
@[simp] theorem State.withStream_index (S : Memory) : (s.withStream S).index = s.index := rfl
@[simp] theorem State.withStream_vals (S : Memory) : (s.withStream S).vals = s.vals := rfl
@[simp] theorem State.withStream_halt (S : Memory) : (s.withStream S).halt = s.halt := rfl
@[simp] theorem State.withStream_agenda (S : Memory) : (s.withStream S).agenda = s.agenda := rfl
@[simp] theorem State.withStream_procedure (S : Memory) : (s.withStream S).procedure = s.procedure := rfl

@[simp] theorem State.countCommand_params : s.countCommand.params = s.params := rfl
@[simp] theorem State.countCommand_mem : s.countCommand.mem = s.mem := rfl
@[simp] theorem State.countCommand_len : s.countCommand.len = s.len := rfl
@[simp] theorem State.countCommand_valueOut : s.countCommand.valueOut = s.valueOut := rfl
@[simp] theorem State.countCommand_err : s.countCommand.err = s.err := rfl
@[simp] theorem State.countCommand_cause : s.countCommand.cause = s.cause := rfl
@[simp] theorem State.countCommand_p : s.countCommand.p = s.p := rfl
@[simp] theorem State.countCommand_records : s.countCommand.records = s.records := rfl
@[simp] theorem State.countCommand_walk : s.countCommand.walk = s.walk := rfl
@[simp] theorem State.countCommand_encoded : s.countCommand.encoded = s.encoded := rfl
@[simp] theorem State.countCommand_index : s.countCommand.index = s.index + 1 := rfl
@[simp] theorem State.countCommand_vals : s.countCommand.vals = s.vals := rfl
@[simp] theorem State.countCommand_halt : s.countCommand.halt = s.halt := rfl
@[simp] theorem State.countCommand_agenda : s.countCommand.agenda = s.agenda := rfl
@[simp] theorem State.countCommand_procedure : s.countCommand.procedure = s.procedure := rfl

@[simp] theorem State.keepValue_params (v : Nat) : (s.keepValue v).params = s.params := rfl
@[simp] theorem State.keepValue_mem (v : Nat) : (s.keepValue v).mem = s.mem := rfl
@[simp] theorem State.keepValue_len (v : Nat) : (s.keepValue v).len = s.len := rfl
@[simp] theorem State.keepValue_valueOut (v : Nat) : (s.keepValue v).valueOut = s.valueOut := rfl
@[simp] theorem State.keepValue_err (v : Nat) : (s.keepValue v).err = s.err := rfl
@[simp] theorem State.keepValue_cause (v : Nat) : (s.keepValue v).cause = s.cause := rfl
@[simp] theorem State.keepValue_p (v : Nat) : (s.keepValue v).p = s.p := rfl
@[simp] theorem State.keepValue_records (v : Nat) : (s.keepValue v).records = s.records := rfl
@[simp] theorem State.keepValue_walk (v : Nat) : (s.keepValue v).walk = s.walk := rfl
@[simp] theorem State.keepValue_encoded (v : Nat) : (s.keepValue v).encoded = s.encoded := rfl
@[simp] theorem State.keepValue_index (v : Nat) : (s.keepValue v).index = s.index := rfl
@[simp] theorem State.keepValue_vals (v : Nat) : (s.keepValue v).vals = s.vals ++ [v] := rfl
@[simp] theorem State.keepValue_halt (v : Nat) : (s.keepValue v).halt = s.halt := rfl
@[simp] theorem State.keepValue_agenda (v : Nat) : (s.keepValue v).agenda = s.agenda := rfl
@[simp] theorem State.keepValue_procedure (v : Nat) : (s.keepValue v).procedure = s.procedure := rfl

@[simp] theorem State.stop_params (h : Halt) : (s.stop h).params = s.params := rfl
@[simp] theorem State.stop_mem (h : Halt) : (s.stop h).mem = s.mem := rfl
@[simp] theorem State.stop_len (h : Halt) : (s.stop h).len = s.len := rfl
@[simp] theorem State.stop_valueOut (h : Halt) : (s.stop h).valueOut = s.valueOut := rfl
@[simp] theorem State.stop_err (h : Halt) : (s.stop h).err = s.err := rfl
@[simp] theorem State.stop_cause (h : Halt) : (s.stop h).cause = s.cause := rfl
@[simp] theorem State.stop_p (h : Halt) : (s.stop h).p = s.p := rfl
@[simp] theorem State.stop_records (h : Halt) : (s.stop h).records = s.records := rfl
@[simp] theorem State.stop_walk (h : Halt) : (s.stop h).walk = s.walk := rfl
@[simp] theorem State.stop_encoded (h : Halt) : (s.stop h).encoded = s.encoded := rfl
@[simp] theorem State.stop_index (h : Halt) : (s.stop h).index = s.index := rfl
@[simp] theorem State.stop_vals (h : Halt) : (s.stop h).vals = s.vals := rfl
@[simp] theorem State.stop_halt (h : Halt) : (s.stop h).halt = some h := rfl
@[simp] theorem State.stop_agenda (h : Halt) : (s.stop h).agenda = s.agenda := rfl
@[simp] theorem State.stop_procedure (h : Halt) : (s.stop h).procedure = s.procedure := rfl

@[simp] theorem State.withAgenda_params (a : List Action) : (s.withAgenda a).params = s.params := rfl
@[simp] theorem State.withAgenda_mem (a : List Action) : (s.withAgenda a).mem = s.mem := rfl
@[simp] theorem State.withAgenda_len (a : List Action) : (s.withAgenda a).len = s.len := rfl
@[simp] theorem State.withAgenda_valueOut (a : List Action) : (s.withAgenda a).valueOut = s.valueOut := rfl
@[simp] theorem State.withAgenda_err (a : List Action) : (s.withAgenda a).err = s.err := rfl
@[simp] theorem State.withAgenda_cause (a : List Action) : (s.withAgenda a).cause = s.cause := rfl
@[simp] theorem State.withAgenda_p (a : List Action) : (s.withAgenda a).p = s.p := rfl
@[simp] theorem State.withAgenda_records (a : List Action) : (s.withAgenda a).records = s.records := rfl
@[simp] theorem State.withAgenda_walk (a : List Action) : (s.withAgenda a).walk = s.walk := rfl
@[simp] theorem State.withAgenda_encoded (a : List Action) : (s.withAgenda a).encoded = s.encoded := rfl
@[simp] theorem State.withAgenda_index (a : List Action) : (s.withAgenda a).index = s.index := rfl
@[simp] theorem State.withAgenda_vals (a : List Action) : (s.withAgenda a).vals = s.vals := rfl
@[simp] theorem State.withAgenda_halt (a : List Action) : (s.withAgenda a).halt = s.halt := rfl
@[simp] theorem State.withAgenda_agenda (a : List Action) : (s.withAgenda a).agenda = a := rfl
@[simp] theorem State.withAgenda_procedure (a : List Action) : (s.withAgenda a).procedure = s.procedure := rfl

@[simp] theorem State.withProcedure_params (q : Procedure) : (s.withProcedure q).params = s.params := rfl
@[simp] theorem State.withProcedure_mem (q : Procedure) : (s.withProcedure q).mem = s.mem := rfl
@[simp] theorem State.withProcedure_len (q : Procedure) : (s.withProcedure q).len = s.len := rfl
@[simp] theorem State.withProcedure_valueOut (q : Procedure) : (s.withProcedure q).valueOut = s.valueOut := rfl
@[simp] theorem State.withProcedure_err (q : Procedure) : (s.withProcedure q).err = s.err := rfl
@[simp] theorem State.withProcedure_cause (q : Procedure) : (s.withProcedure q).cause = s.cause := rfl
@[simp] theorem State.withProcedure_p (q : Procedure) : (s.withProcedure q).p = s.p := rfl
@[simp] theorem State.withProcedure_records (q : Procedure) : (s.withProcedure q).records = s.records := rfl
@[simp] theorem State.withProcedure_walk (q : Procedure) : (s.withProcedure q).walk = s.walk := rfl
@[simp] theorem State.withProcedure_encoded (q : Procedure) : (s.withProcedure q).encoded = s.encoded := rfl
@[simp] theorem State.withProcedure_index (q : Procedure) : (s.withProcedure q).index = s.index := rfl
@[simp] theorem State.withProcedure_vals (q : Procedure) : (s.withProcedure q).vals = s.vals := rfl
@[simp] theorem State.withProcedure_halt (q : Procedure) : (s.withProcedure q).halt = s.halt := rfl
@[simp] theorem State.withProcedure_agenda (q : Procedure) : (s.withProcedure q).agenda = s.agenda := rfl
@[simp] theorem State.withProcedure_procedure (q : Procedure) : (s.withProcedure q).procedure = q := rfl

@[simp] theorem State.withEncoded_params (b : List Byte) : (s.withEncoded b).params = s.params := rfl
@[simp] theorem State.withEncoded_mem (b : List Byte) : (s.withEncoded b).mem = s.mem := rfl
@[simp] theorem State.withEncoded_len (b : List Byte) : (s.withEncoded b).len = s.len := rfl
@[simp] theorem State.withEncoded_valueOut (b : List Byte) : (s.withEncoded b).valueOut = s.valueOut := rfl
@[simp] theorem State.withEncoded_err (b : List Byte) : (s.withEncoded b).err = s.err := rfl
@[simp] theorem State.withEncoded_cause (b : List Byte) : (s.withEncoded b).cause = s.cause := rfl
@[simp] theorem State.withEncoded_p (b : List Byte) : (s.withEncoded b).p = s.p := rfl
@[simp] theorem State.withEncoded_records (b : List Byte) : (s.withEncoded b).records = s.records := rfl
@[simp] theorem State.withEncoded_walk (b : List Byte) : (s.withEncoded b).walk = s.walk := rfl
@[simp] theorem State.withEncoded_encoded (b : List Byte) : (s.withEncoded b).encoded = b := rfl
@[simp] theorem State.withEncoded_index (b : List Byte) : (s.withEncoded b).index = s.index := rfl
@[simp] theorem State.withEncoded_vals (b : List Byte) : (s.withEncoded b).vals = s.vals := rfl
@[simp] theorem State.withEncoded_halt (b : List Byte) : (s.withEncoded b).halt = s.halt := rfl
@[simp] theorem State.withEncoded_agenda (b : List Byte) : (s.withEncoded b).agenda = s.agenda := rfl
@[simp] theorem State.withEncoded_procedure (b : List Byte) : (s.withEncoded b).procedure = s.procedure := rfl

@[simp] theorem State.pushRecord_params (m : Kind) (ops : List Nat) : (s.pushRecord m ops).params = s.params := rfl
@[simp] theorem State.pushRecord_mem (m : Kind) (ops : List Nat) : (s.pushRecord m ops).mem = s.mem := rfl
@[simp] theorem State.pushRecord_len (m : Kind) (ops : List Nat) : (s.pushRecord m ops).len = s.len := rfl
@[simp] theorem State.pushRecord_valueOut (m : Kind) (ops : List Nat) : (s.pushRecord m ops).valueOut = s.valueOut := rfl
@[simp] theorem State.pushRecord_err (m : Kind) (ops : List Nat) : (s.pushRecord m ops).err = s.err := rfl
@[simp] theorem State.pushRecord_cause (m : Kind) (ops : List Nat) : (s.pushRecord m ops).cause = s.cause := rfl
@[simp] theorem State.pushRecord_p (m : Kind) (ops : List Nat) : (s.pushRecord m ops).p = s.p + (layout s.params m).len := rfl
@[simp] theorem State.pushRecord_records (m : Kind) (ops : List Nat) : (s.pushRecord m ops).records = s.records ++ [{ pos := s.p, kind := m, ops := ops }] := rfl
@[simp] theorem State.pushRecord_walk (m : Kind) (ops : List Nat) : (s.pushRecord m ops).walk = .running := rfl
@[simp] theorem State.pushRecord_encoded (m : Kind) (ops : List Nat) : (s.pushRecord m ops).encoded = s.encoded := rfl
@[simp] theorem State.pushRecord_index (m : Kind) (ops : List Nat) : (s.pushRecord m ops).index = s.index := rfl
@[simp] theorem State.pushRecord_vals (m : Kind) (ops : List Nat) : (s.pushRecord m ops).vals = s.vals := rfl
@[simp] theorem State.pushRecord_halt (m : Kind) (ops : List Nat) : (s.pushRecord m ops).halt = s.halt := rfl
@[simp] theorem State.pushRecord_agenda (m : Kind) (ops : List Nat) : (s.pushRecord m ops).agenda = s.agenda := rfl
@[simp] theorem State.pushRecord_procedure (m : Kind) (ops : List Nat) : (s.pushRecord m ops).procedure = s.procedure := rfl

@[simp] theorem State.startWalk_params : s.startWalk.params = s.params := rfl
@[simp] theorem State.startWalk_mem : s.startWalk.mem = s.mem := rfl
@[simp] theorem State.startWalk_len : s.startWalk.len = s.len := rfl
@[simp] theorem State.startWalk_valueOut : s.startWalk.valueOut = s.valueOut := rfl
@[simp] theorem State.startWalk_err : s.startWalk.err = s.err := rfl
@[simp] theorem State.startWalk_cause : s.startWalk.cause = s.cause := rfl
@[simp] theorem State.startWalk_p : s.startWalk.p = 0 := rfl
@[simp] theorem State.startWalk_records : s.startWalk.records = [] := rfl
@[simp] theorem State.startWalk_walk : s.startWalk.walk = .running := rfl
@[simp] theorem State.startWalk_encoded : s.startWalk.encoded = s.encoded := rfl
@[simp] theorem State.startWalk_index : s.startWalk.index = s.index := rfl
@[simp] theorem State.startWalk_vals : s.startWalk.vals = s.vals := rfl
@[simp] theorem State.startWalk_halt : s.startWalk.halt = s.halt := rfl
@[simp] theorem State.startWalk_agenda : s.startWalk.agenda = s.agenda := rfl
@[simp] theorem State.startWalk_procedure : s.startWalk.procedure = s.procedure := rfl

@[simp] theorem State.walkDone_params : s.walkDone.params = s.params := rfl
@[simp] theorem State.walkDone_mem : s.walkDone.mem = s.mem := rfl
@[simp] theorem State.walkDone_len : s.walkDone.len = s.len := rfl
@[simp] theorem State.walkDone_valueOut : s.walkDone.valueOut = s.valueOut := rfl
@[simp] theorem State.walkDone_err : s.walkDone.err = s.err := rfl
@[simp] theorem State.walkDone_cause : s.walkDone.cause = s.cause := rfl
@[simp] theorem State.walkDone_p : s.walkDone.p = s.p := rfl
@[simp] theorem State.walkDone_records : s.walkDone.records = s.records := rfl
@[simp] theorem State.walkDone_walk : s.walkDone.walk = .done := rfl
@[simp] theorem State.walkDone_encoded : s.walkDone.encoded = s.encoded := rfl
@[simp] theorem State.walkDone_index : s.walkDone.index = s.index := rfl
@[simp] theorem State.walkDone_vals : s.walkDone.vals = s.vals := rfl
@[simp] theorem State.walkDone_halt : s.walkDone.halt = s.halt := rfl
@[simp] theorem State.walkDone_agenda : s.walkDone.agenda = s.agenda := rfl
@[simp] theorem State.walkDone_procedure : s.walkDone.procedure = s.procedure := rfl

@[simp] theorem State.presentStream_params (S : Memory) (L : Nat) : (s.presentStream S L).params = s.params := rfl
@[simp] theorem State.presentStream_mem (S : Memory) (L : Nat) : (s.presentStream S L).mem = S := rfl
@[simp] theorem State.presentStream_len (S : Memory) (L : Nat) : (s.presentStream S L).len = L := rfl
@[simp] theorem State.presentStream_valueOut (S : Memory) (L : Nat) : (s.presentStream S L).valueOut = s.valueOut := rfl
@[simp] theorem State.presentStream_err (S : Memory) (L : Nat) : (s.presentStream S L).err = s.err := rfl
@[simp] theorem State.presentStream_cause (S : Memory) (L : Nat) : (s.presentStream S L).cause = s.cause := rfl
@[simp] theorem State.presentStream_p (S : Memory) (L : Nat) : (s.presentStream S L).p = 0 := rfl
@[simp] theorem State.presentStream_records (S : Memory) (L : Nat) : (s.presentStream S L).records = [] := rfl
@[simp] theorem State.presentStream_walk (S : Memory) (L : Nat) : (s.presentStream S L).walk = .idle := rfl
@[simp] theorem State.presentStream_encoded (S : Memory) (L : Nat) : (s.presentStream S L).encoded = s.encoded := rfl
@[simp] theorem State.presentStream_index (S : Memory) (L : Nat) : (s.presentStream S L).index = 0 := rfl
@[simp] theorem State.presentStream_vals (S : Memory) (L : Nat) : (s.presentStream S L).vals = [] := rfl
@[simp] theorem State.presentStream_halt (S : Memory) (L : Nat) : (s.presentStream S L).halt = s.halt := rfl
@[simp] theorem State.presentStream_agenda (S : Memory) (L : Nat) : (s.presentStream S L).agenda = s.agenda := rfl
@[simp] theorem State.presentStream_procedure (S : Memory) (L : Nat) : (s.presentStream S L).procedure = s.procedure := rfl

end Sys2Proof.Machine
end

