-- ==== Sys2Proof/Laws/Ops.lean ====
section
/-! SUPPORT. What the shared operations can do: the checks, one command of a host sequence, and how each instruction's
meaning runs one. -/

namespace Sys2Proof

/-! ## Checks -/

theorem check_nop (P : Params) (w o v L : Nat) : check P 0 w o v L = .none := rfl

theorem check_reserved (P : Params) (w o v L : Nat) : check P 3 w o v L = .illegalOp := rfl

/-- The checks of a PACK in their order (60_exceptions.md R128). -/
theorem check_pack (P : Params) (w o v L : Nat) :
    check P 1 w o v L =
      if P.maxW < w then .width
      else if P.streamCap < L ∨ 8 * L < o + w then .bounds
      else if 2 ^ w ≤ v then .value else .none := by
  simp [check, widthError, boundsError, valueError]

/-- The checks of an UNPACK: those of a PACK without VALUE (41_codec_ops.md R89). -/
theorem check_unpack (P : Params) (w o v L : Nat) :
    check P 2 w o v L =
      if P.maxW < w then .width else if P.streamCap < L ∨ 8 * L < o + w then .bounds else .none := by
  simp [check, widthError, boundsError]

theorem check_pack_eq_none {P : Params} {w o v L : Nat} :
    check P 1 w o v L = .none ↔ w ≤ P.maxW ∧ L ≤ P.streamCap ∧ o + w ≤ 8 * L ∧ v < 2 ^ w := by
  rw [check_pack]
  split_ifs <;> simp <;> omega

theorem check_unpack_eq_none {P : Params} {w o v L : Nat} :
    check P 2 w o v L = .none ↔ w ≤ P.maxW ∧ L ≤ P.streamCap ∧ o + w ≤ 8 * L := by
  rw [check_unpack]
  split_ifs <;> simp <;> omega

@[simp] theorem errOf_eq_false {c : Cause} : errOf c = false ↔ c = .none := by simp [errOf]

@[simp] theorem errOf_eq_true {c : Cause} : errOf c = true ↔ c ≠ .none := by simp [errOf]

theorem bundle_op_lt (b : Bundle) : b.op < 4 := Nat.mod_lt _ (by omega)

theorem decodeCommand_of_nop {b : Bundle} (h : b.op = 0) : decodeCommand b = .nop := by simp [decodeCommand, h]

theorem decodeCommand_of_pack {b : Bundle} (h : b.op = 1) : decodeCommand b = .pack b.w b.o b.v := by
  simp [decodeCommand, h]

theorem decodeCommand_of_unpack {b : Bundle} (h : b.op = 2) : decodeCommand b = .unpack b.w b.o := by
  simp [decodeCommand, h]

theorem decodeCommand_of_reserved {b : Bundle} (h : b.op = 3) : decodeCommand b = .reservedOp3 := by
  simp [decodeCommand, h]

namespace Machine

/-! ## One command -/

theorem evaluate_of_error {P : Params} {op w o v L : Nat} {S : Memory} (h : check P op w o v L ≠ .none) :
    evaluate P op w o v L S = .raise S (check P op w o v L) := if_neg h

theorem evaluate_of_pass {P : Params} {op w o v L : Nat} {S : Memory} (h : check P op w o v L = .none) :
    evaluate P op w o v L S = completed P op w o v S := if_pos h

theorem completed_err (P : Params) (op w o v : Nat) (S : Memory) : (completed P op w o v S).err = false := by
  unfold completed; split_ifs <;> rfl

theorem completed_cause (P : Params) (op w o v : Nat) (S : Memory) : (completed P op w o v S).cause = .none := by
  unfold completed; split_ifs <;> rfl

/-- `err` and `cause` of a command are those of its checks (60_exceptions.md R128). -/
theorem evaluate_cause (P : Params) (op w o v L : Nat) (S : Memory) :
    (evaluate P op w o v L S).cause = check P op w o v L := by
  by_cases h : check P op w o v L = .none
  · rw [evaluate_of_pass h, completed_cause, h]
  · rw [evaluate_of_error h]; rfl

theorem evaluate_err (P : Params) (op w o v L : Nat) (S : Memory) :
    (evaluate P op w o v L S).err = errOf (check P op w o v L) := by
  by_cases h : check P op w o v L = .none
  · rw [evaluate_of_pass h, completed_err, h]; rfl
  · rw [evaluate_of_error h]; rfl

theorem State.runCommand_cause (s : State) (op w o v : Nat) :
    (s.runCommand op w o v).cause = check s.params op w o v s.len := by
  unfold State.runCommand
  simp only
  split_ifs <;> simp [evaluate_cause]

theorem State.runCommand_err (s : State) (op w o v : Nat) :
    (s.runCommand op w o v).err = errOf (check s.params op w o v s.len) := by
  unfold State.runCommand
  simp only
  split_ifs <;> simp [evaluate_err]

/-- A command whose check raises (60_exceptions.md R129, 42_record_layouts.md R114). -/
theorem State.runCommand_of_error {s : State} {op w o v : Nat} (h : check s.params op w o v s.len ≠ .none) :
    s.runCommand op w o v = { s with
      valueOut := 0, err := true, cause := check s.params op w o v s.len
      halt := some (.stopped s.index (check s.params op w o v s.len)) } := by
  have he : errOf (check s.params op w o v s.len) = true := errOf_eq_true.2 h
  simp [State.runCommand, evaluate_of_error h, Outputs.raise, he, State.withOutputs, State.stop]

/-- A PACK that completes. -/
theorem State.runCommand_pack {s : State} {w o v : Nat} (h : check s.params 1 w o v s.len = .none) :
    s.runCommand 1 w o v = { s with
      mem := packBits s.params.bitOrder s.mem o w v, valueOut := 0, err := false, cause := .none
      index := s.index + 1 } := by
  simp [State.runCommand, evaluate_of_pass h, completed, Outputs.complete, State.withOutputs, State.withStream,
    State.countCommand]

/-- An UNPACK that completes. -/
theorem State.runCommand_unpack {s : State} {w o v : Nat} (h : check s.params 2 w o v s.len = .none) :
    s.runCommand 2 w o v = { s with
      valueOut := unpackBits s.params.bitOrder s.mem o w, err := false, cause := .none
      index := s.index + 1, vals := s.vals ++ [unpackBits s.params.bitOrder s.mem o w] } := by
  simp [State.runCommand, evaluate_of_pass h, completed, Outputs.complete, State.withOutputs, State.withStream,
    State.countCommand, State.keepValue]

theorem State.runCommand_nop (s : State) (w o v : Nat) :
    s.runCommand 0 w o v =
      { s with valueOut := 0, err := false, cause := .none, index := s.index + 1 } := by
  simp [State.runCommand, evaluate_of_pass (check_nop ..), completed, Outputs.complete, State.withOutputs,
    State.withStream, State.countCommand]

/-- A bundle runs as its selector says: the fields a command does not use make no difference (30_encoding.md R58). -/
theorem exec_decodeCommand (b : Bundle) (s : State) :
    exec (decodeCommand b) s = .next (s.runCommand b.op b.w b.o b.v) := by
  have h4 := bundle_op_lt b
  rcases (by omega : b.op = 0 ∨ b.op = 1 ∨ b.op = 2 ∨ b.op = 3) with h | h | h | h
  · rw [decodeCommand_of_nop h, h]
    exact congrArg Host.Outcome.next ((s.runCommand_nop _ _ _).trans (s.runCommand_nop _ _ _).symm)
  · rw [decodeCommand_of_pack h, h]; rfl
  · rw [decodeCommand_of_unpack h, h]
    have hc : check s.params 2 b.w b.o 0 s.len = check s.params 2 b.w b.o b.v s.len := by
      rw [check_unpack, check_unpack]
    refine congrArg Host.Outcome.next ?_
    by_cases hn : check s.params 2 b.w b.o b.v s.len = .none
    · rw [State.runCommand_unpack (hc.trans hn), State.runCommand_unpack hn]
    · rw [State.runCommand_of_error hn, State.runCommand_of_error (by rwa [hc]), hc]
  · rw [decodeCommand_of_reserved h, h]
    refine congrArg Host.Outcome.next ?_
    rw [State.runCommand_of_error (by rw [check_reserved]; decide),
      State.runCommand_of_error (by rw [check_reserved]; decide), check_reserved, check_reserved]

/-- Everything one command can do: its check raises, or it completes as NOP, PACK or UNPACK. -/
theorem State.runCommand_cases (s : State) {op : Nat} (hop : op < 4) (w o v : Nat) :
    (check s.params op w o v s.len ≠ .none ∧
      s.runCommand op w o v = { s with
        valueOut := 0, err := true, cause := check s.params op w o v s.len
        halt := some (.stopped s.index (check s.params op w o v s.len)) }) ∨
    (op = 0 ∧ s.runCommand op w o v =
      { s with valueOut := 0, err := false, cause := .none, index := s.index + 1 }) ∨
    (op = 1 ∧ w ≤ s.params.maxW ∧ s.len ≤ s.params.streamCap ∧ o + w ≤ 8 * s.len ∧ v < 2 ^ w ∧
      s.runCommand op w o v = { s with
        mem := packBits s.params.bitOrder s.mem o w v, valueOut := 0, err := false, cause := .none
        index := s.index + 1 }) ∨
    (op = 2 ∧ w ≤ s.params.maxW ∧ s.len ≤ s.params.streamCap ∧ o + w ≤ 8 * s.len ∧
      s.runCommand op w o v = { s with
        valueOut := unpackBits s.params.bitOrder s.mem o w, err := false, cause := .none
        index := s.index + 1, vals := s.vals ++ [unpackBits s.params.bitOrder s.mem o w] }) := by
  by_cases hc : check s.params op w o v s.len = .none
  · rcases (by omega : op = 0 ∨ op = 1 ∨ op = 2 ∨ op = 3) with rfl | rfl | rfl | rfl
    · exact .inr (.inl ⟨rfl, s.runCommand_nop w o v⟩)
    · obtain ⟨h1, h2, h3, h4⟩ := check_pack_eq_none.1 hc
      exact .inr (.inr (.inl ⟨rfl, h1, h2, h3, h4, State.runCommand_pack hc⟩))
    · obtain ⟨h1, h2, h3⟩ := check_unpack_eq_none.1 hc
      exact .inr (.inr (.inr ⟨rfl, h1, h2, h3, State.runCommand_unpack hc⟩))
    · exact absurd hc (by rw [check_reserved]; decide)
  · exact .inl ⟨hc, State.runCommand_of_error hc⟩

/-- A PACK whose checks pass, as an instruction. -/
theorem exec_pack {s : State} {w o v : Nat}
    (h : w ≤ s.params.maxW ∧ s.len ≤ s.params.streamCap ∧ o + w ≤ 8 * s.len ∧ v < 2 ^ w) :
    exec (.pack w o v) s = .next { s with
      mem := packBits s.params.bitOrder s.mem o w v, valueOut := 0, err := false, cause := .none
      index := s.index + 1 } :=
  congrArg Host.Outcome.next (State.runCommand_pack (check_pack_eq_none.2 h))

/-- An UNPACK whose checks pass, as an instruction. -/
theorem exec_unpack {s : State} {w o : Nat}
    (h : w ≤ s.params.maxW ∧ s.len ≤ s.params.streamCap ∧ o + w ≤ 8 * s.len) :
    exec (.unpack w o) s = .next { s with
      valueOut := unpackBits s.params.bitOrder s.mem o w, err := false, cause := .none
      index := s.index + 1, vals := s.vals ++ [unpackBits s.params.bitOrder s.mem o w] } :=
  congrArg Host.Outcome.next (State.runCommand_unpack (check_unpack_eq_none.2 h))

/-- A PACK that answers without an error has completed. -/
theorem pack_completed {s t : State} {w o v : Nat} (h : exec (.pack w o v) s = .next t) (he : t.err = false) :
    (w ≤ s.params.maxW ∧ s.len ≤ s.params.streamCap ∧ o + w ≤ 8 * s.len ∧ v < 2 ^ w) ∧
      t = { s with
        mem := packBits s.params.bitOrder s.mem o w v, valueOut := 0, err := false, cause := .none
        index := s.index + 1 } := by
  obtain rfl : s.runCommand 1 w o v = t := by simpa [exec, execPack] using h
  rcases s.runCommand_cases (op := 1) (by omega) w o v with ⟨-, h⟩ | ⟨h, -⟩ | ⟨-, h1, h2, h3, h4, h⟩ | ⟨h, -⟩
  · rw [h] at he; exact absurd he (by simp)
  · omega
  · exact ⟨⟨h1, h2, h3, h4⟩, h⟩
  · omega

/-- An UNPACK that answers without an error has completed. -/
theorem unpack_completed {s t : State} {w o : Nat} (h : exec (.unpack w o) s = .next t) (he : t.err = false) :
    (w ≤ s.params.maxW ∧ s.len ≤ s.params.streamCap ∧ o + w ≤ 8 * s.len) ∧
      t = { s with
        valueOut := unpackBits s.params.bitOrder s.mem o w, err := false, cause := .none
        index := s.index + 1, vals := s.vals ++ [unpackBits s.params.bitOrder s.mem o w] } := by
  obtain rfl : s.runCommand 2 w o 0 = t := by simpa [exec, execUnpack] using h
  rcases s.runCommand_cases (op := 2) (by omega) w o 0 with ⟨-, h⟩ | ⟨h, -⟩ | ⟨h, -⟩ | ⟨-, h1, h2, h3, h⟩
  · rw [h] at he; exact absurd he (by simp)
  · omega
  · omega
  · exact ⟨⟨h1, h2, h3⟩, h⟩

end Machine
end Sys2Proof
end

