-- ==== Sys2Proof/Laws/Records.lean ====
section
/-! SUPPORT. Record formats: which instruction a kind and its operands are, what a list of packed fields leaves in each
stream bit, and how a record's bytes relate to the number its format draws. -/

namespace Sys2Proof

/-! ## Instructions and their operands -/

theorem ofOps_eq_some {m : Kind} {ops : List Nat} {i : Instr} :
    Instr.ofOps m ops = some i ↔ i.recordOps = some (m, ops) := by
  constructor
  · intro h
    unfold Instr.ofOps at h
    split at h <;> simp_all only [Option.some.injEq, reduceCtorEq] <;> subst h <;> rfl
  · intro h
    cases i <;> simp_all only [Instr.recordOps, Option.some.injEq, Prod.mk.injEq, reduceCtorEq] <;>
      obtain ⟨rfl, rfl⟩ := h <;> rfl

theorem ofOps_eq_none {m : Kind} {ops : List Nat} (P : Params) :
    Instr.ofOps m ops = none ↔ ops.length ≠ (layout P m).widths.length := by
  cases m <;> rcases ops with _ | ⟨a, _ | ⟨b, _ | ⟨c, _ | ⟨d, l⟩⟩⟩⟩ <;> simp [Instr.ofOps, layout]

/-- The operand list a kind reads from its fields. -/
def fieldOps (P : Params) (m : Kind) (field : Nat → Nat) : List Nat :=
  (List.range (layout P m).widths.length).map field

theorem recordOps_recordInstr (P : Params) (m : Kind) (field : Nat → Nat) :
    (recordInstr m field).recordOps = some (m, fieldOps P m field) := by
  cases m <;> rfl

theorem recordOps_length {i : Instr} {m : Kind} {ops : List Nat} (P : Params) (h : i.recordOps = some (m, ops)) :
    ops.length = (layout P m).widths.length := by
  cases i <;> simp only [Instr.recordOps, Option.some.injEq, Prod.mk.injEq, reduceCtorEq] at h <;>
    obtain ⟨rfl, rfl⟩ := h <;> rfl

/-- A record instruction is well-formed exactly when its format can hold its operands (30_encoding.md R70). -/
theorem wf_iff_opsInRange {i : Instr} {m : Kind} {ops : List Nat} (P : Params) (h : i.recordOps = some (m, ops)) :
    i.wf P = true ↔ opsInRange (layout P m) ops := by
  cases i <;> simp only [Instr.recordOps, Option.some.injEq, Prod.mk.injEq, reduceCtorEq] at h <;>
    obtain ⟨rfl, rfl⟩ := h <;> simp [Instr.wf, opsInRange, layout, and_assoc]

theorem wf_pack {P : Params} {w o v : Nat} :
    (Instr.pack w o v).wf P = true ↔ w < 64 ∧ o < 2 ^ P.offW ∧ v < 2 ^ P.maxW := by
  rw [show 64 = 2 ^ widthPortBits from rfl]; simp [Instr.wf, and_assoc]

theorem wf_unpack {P : Params} {w o : Nat} : (Instr.unpack w o).wf P = true ↔ w < 64 ∧ o < 2 ^ P.offW := by
  rw [show 64 = 2 ^ widthPortBits from rfl]; simp [Instr.wf]

/-! ## Decoding -/

/-- The operand `k` of the record at byte `p`, by UNPACK (42_record_layouts.md R103). -/
def fieldAt (P : Params) (S : Memory) (p : Nat) (m : Kind) (k : Nat) : Nat :=
  unpackBits P.bitOrder S (8 * p + (layout P m).offset k) ((layout P m).width k)

theorem decodeRecord_of_tag {P : Params} {S : Memory} {p L : Nat} {m : Kind} (ht : Kind.ofTag (tagAt P S p) = some m)
    (hl : p + (layout P m).len ≤ L) : decodeRecord P S p L = .ok (recordInstr m (fieldAt P S p m)) := by
  rw [decodeRecord, ht]
  exact if_neg (Nat.not_lt.2 hl)

/-- Everything `DecodeRecord` can answer (R103): an unknown tag, a truncated record, or the instruction of the record's
fields. -/
theorem decodeRecord_cases (P : Params) (S : Memory) (p L : Nat) :
    (Kind.ofTag (tagAt P S p) = none ∧ decodeRecord P S p L = .error (.unknownOpcodeTag p (tagAt P S p))) ∨
    (∃ m, Kind.ofTag (tagAt P S p) = some m ∧ L < p + (layout P m).len ∧
      decodeRecord P S p L = .error (.truncatedProgram p (tagAt P S p) (layout P m).len (L - p))) ∨
    (∃ m, Kind.ofTag (tagAt P S p) = some m ∧ p + (layout P m).len ≤ L ∧
      decodeRecord P S p L = .ok (recordInstr m (fieldAt P S p m))) := by
  cases ht : Kind.ofTag (tagAt P S p) with
  | none => exact .inl ⟨rfl, by rw [decodeRecord, ht]⟩
  | some m =>
    by_cases hl : L < p + (layout P m).len
    · refine .inr (.inl ⟨m, rfl, hl, ?_⟩)
      rw [decodeRecord, ht]
      exact if_pos hl
    · exact .inr (.inr ⟨m, rfl, Nat.not_lt.1 hl, decodeRecord_of_tag ht (Nat.not_lt.1 hl)⟩)

theorem decodeRecord_eq_ok {P : Params} {S : Memory} {p L : Nat} {i : Instr} (h : decodeRecord P S p L = .ok i) :
    ∃ m, Kind.ofTag (tagAt P S p) = some m ∧ p + (layout P m).len ≤ L ∧ i = recordInstr m (fieldAt P S p m) ∧
      i.recordOps = some (m, fieldOps P m (fieldAt P S p m)) := by
  rcases decodeRecord_cases P S p L with ⟨-, h'⟩ | ⟨m, -, -, h'⟩ | ⟨m, ht, hl, h'⟩
  · rw [h'] at h; exact absurd h (by simp)
  · rw [h'] at h; exact absurd h (by simp)
  · rw [h'] at h
    obtain rfl : recordInstr m (fieldAt P S p m) = i := by simpa using h
    exact ⟨m, ht, hl, rfl, recordOps_recordInstr P m _⟩

/-- The operands decoded fit their fields. -/
theorem fieldOps_inRange (P : Params) (S : Memory) (p : Nat) (m : Kind) :
    opsInRange (layout P m) (fieldOps P m (fieldAt P S p m)) := by
  refine ⟨by simp [fieldOps], fun f hf => ?_⟩
  obtain ⟨k, hk, rfl⟩ := List.mem_iff_getElem.1 hf
  have hw : k < (layout P m).widths.length := by simp at hk; omega
  simpa [fieldOps, fieldAt, Layout.width, hw] using
    unpackBits_lt P.bitOrder S (8 * p + (layout P m).offset k) ((layout P m).width k)

theorem ofTag_tag (P : Params) (m : Kind) : Kind.ofTag (layout P m).tag = some m := by cases m <;> rfl

theorem tag_of_ofTag {t : Nat} {m : Kind} (P : Params) (h : Kind.ofTag t = some m) : t = (layout P m).tag := by
  unfold Kind.ofTag at h
  split_ifs at h <;> simp only [Option.some.injEq] at h <;> subst h <;> simpa [layout]

theorem usedBits_le {P : Params} (hP : P.legal) (m : Kind) : (layout P m).usedBits ≤ 8 * (layout P m).len := by
  obtain ⟨-, -, -, -, h, -⟩ := hP
  cases m <;> simp only [layout, Layout.usedBits, List.sum_cons, List.sum_nil] <;> omega

theorem six_le_len {P : Params} (hP : P.legal) (m : Kind) : 6 ≤ (layout P m).len := by
  obtain ⟨-, -, -, -, h, -⟩ := hP
  cases m <;> simp only [layout] <;> omega

theorem len_le_streamCap {P : Params} (hP : P.legal) (m : Kind) : (layout P m).len ≤ P.streamCap := by
  obtain ⟨-, h, -, -, -, h'⟩ := hP
  cases m <;> simp [layout] <;> omega

theorem tag_lt (P : Params) (m : Kind) : (layout P m).tag < 2 ^ 3 := by cases m <;> simp [layout]

/-- Every operand stands among the bits its record uses. -/
theorem field_le_usedBits (P : Params) (m : Kind) {k : Nat} (hk : k < (layout P m).widths.length) :
    (layout P m).offset k + (layout P m).width k ≤ (layout P m).usedBits := by
  cases m <;> rcases k with _ | _ | _ | k <;>
    simp [layout, Layout.offset, Layout.width, Layout.usedBits] at hk ⊢

/-- A record's decoding depends on the bits it uses alone (42_record_layouts.md R104, R110). -/
theorem decodeRecord_congr {P : Params} {S S' : Memory} {p p' L L' : Nat} {m : Kind}
    (ht : Kind.ofTag (tagAt P S p) = some m) (hL : p + (layout P m).len ≤ L) (hL' : p' + (layout P m).len ≤ L')
    (h : ∀ k, k < (layout P m).usedBits →
      streamBit P.bitOrder S (8 * p + k) = streamBit P.bitOrder S' (8 * p' + k)) :
    decodeRecord P S' p' L' = decodeRecord P S p L := by
  have ht' : tagAt P S' p' = tagAt P S p :=
    (unpackBits_congr fun j hj => h j (by rw [Layout.usedBits]; omega)).symm
  rw [decodeRecord_of_tag ht hL, decodeRecord_of_tag (by rw [ht', ht]) hL']
  have hf : ∀ k, k < (layout P m).widths.length → fieldAt P S' p' m k = fieldAt P S p m k := fun k hk =>
    (unpackBits_congr fun j hj => by
      have := field_le_usedBits P m hk
      rw [Nat.add_assoc, Nat.add_assoc, h _ (by omega)]).symm
  congr 1
  cases m <;> simp only [recordInstr]
  · rw [hf 0 (by simp [layout]), hf 1 (by simp [layout])]
  · rw [hf 0 (by simp [layout]), hf 1 (by simp [layout])]
  · rw [hf 0 (by simp [layout]), hf 1 (by simp [layout]), hf 2 (by simp [layout])]
  · rw [hf 0 (by simp [layout]), hf 1 (by simp [layout]), hf 2 (by simp [layout])]

/-! ## Packed fields -/

/-- Fields packed one after another from bit `o` on. -/
def packFields (order : BitOrder) : Memory → Nat → List (Nat × Nat) → Memory
  | S, _, [] => S
  | S, o, (w, v) :: fields => packFields order (packBits order S o w v) (o + w) fields

/-- The bits a list of fields takes. -/
def fieldBits (fields : List (Nat × Nat)) : Nat := (fields.map Prod.fst).sum

@[simp] theorem fieldBits_nil : fieldBits [] = 0 := rfl

@[simp] theorem fieldBits_cons (w v : Nat) (fields : List (Nat × Nat)) :
    fieldBits ((w, v) :: fields) = w + fieldBits fields := by simp [fieldBits]

theorem streamBit_packFields_outside (order : BitOrder) (fields : List (Nat × Nat)) (S : Memory) {o k : Nat}
    (h : k < o ∨ o + fieldBits fields ≤ k) :
    streamBit order (packFields order S o fields) k = streamBit order S k := by
  induction fields generalizing S o with
  | nil => rfl
  | cons f fields ih =>
    obtain ⟨w, v⟩ := f
    rw [fieldBits_cons] at h
    rw [packFields, ih _ (by omega), streamBit_packBits, if_neg (by omega)]

theorem wf_packFields (order : BitOrder) (fields : List (Nat × Nat)) {S : Memory} (o : Nat) (h : S.wf = true) :
    (packFields order S o fields).wf = true := by
  induction fields generalizing S o with
  | nil => exact h
  | cons f fields ih => exact ih (o + f.1) (wf_packBits order o f.1 f.2 h)

/-- A field among others reads back what was packed there. -/
theorem unpackBits_packFields (order : BitOrder) (before after : List (Nat × Nat)) (S : Memory) (o : Nat) {w v : Nat}
    (hv : v < 2 ^ w) :
    unpackBits order (packFields order S o (before ++ (w, v) :: after)) (o + fieldBits before) w = v := by
  induction before generalizing S o with
  | nil =>
    rw [fieldBits_nil, Nat.add_zero, List.nil_append, packFields]
    rw [unpackBits_congr (S' := packBits order S o w v) (o' := o) fun j hj =>
      streamBit_packFields_outside order after _ (Or.inl (by omega))]
    exact unpackBits_packBits order S hv
  | cons f before ih =>
    rw [List.cons_append, packFields, fieldBits_cons, ← Nat.add_assoc]
    exact ih _ _

/-- Under LSB_FIRST the fields fill the number from its low bits (30_encoding.md R62 to R65). -/
theorem streamBit_packFields_lsb (fields : List (Nat × Nat)) (S : Memory) {o k : Nat}
    (hf : ∀ f ∈ fields, f.2 < 2 ^ f.1) (h : o ≤ k) (h' : k < o + fieldBits fields) :
    streamBit .lsbFirst (packFields .lsbFirst S o fields) k = (fieldsUp fields).testBit (k - o) := by
  induction fields generalizing S o with
  | nil => simp at h'; omega
  | cons f fields ih =>
    obtain ⟨w, v⟩ := f
    have hv : v < 2 ^ w := hf (w, v) (by simp)
    rw [fieldBits_cons] at h'
    rw [packFields, fieldsUp, Nat.add_comm v, Nat.testBit_two_pow_mul_add _ hv]
    by_cases hk : k < o + w
    · rw [streamBit_packFields_outside _ _ _ (Or.inl hk), streamBit_packBits, if_pos ⟨h, hk⟩, if_pos (by omega)]
      rfl
    · rw [ih _ (fun f hf' => hf f (by simp [hf'])) (by omega) (by omega), if_neg (by omega), Nat.sub_sub]

theorem fieldsDown_eq (fields : List (Nat × Nat)) (acc : Nat) :
    fieldsDown acc fields = acc * 2 ^ fieldBits fields + fieldsDown 0 fields := by
  induction fields generalizing acc with
  | nil => simp [fieldsDown]
  | cons f fields ih =>
    obtain ⟨w, v⟩ := f
    rw [fieldsDown, ih, fieldsDown, ih (0 * 2 ^ w + v), fieldBits_cons, Nat.pow_add]
    ring

theorem fieldsDown_lt (fields : List (Nat × Nat)) (hf : ∀ f ∈ fields, f.2 < 2 ^ f.1) :
    fieldsDown 0 fields < 2 ^ fieldBits fields := by
  induction fields with
  | nil => simp [fieldsDown]
  | cons f fields ih =>
    obtain ⟨w, v⟩ := f
    have hv : v < 2 ^ w := hf (w, v) (by simp)
    have := ih fun f hf' => hf f (by simp [hf'])
    rw [fieldsDown, fieldsDown_eq, fieldBits_cons, Nat.pow_add]
    nlinarith

/-- Under MSB_FIRST the fields fill the number from its high bits (20_memory.md R36, R38). -/
theorem streamBit_packFields_msb (fields : List (Nat × Nat)) (S : Memory) {o k : Nat}
    (hf : ∀ f ∈ fields, f.2 < 2 ^ f.1) (h : o ≤ k) (h' : k < o + fieldBits fields) :
    streamBit .msbFirst (packFields .msbFirst S o fields) k =
      (fieldsDown 0 fields).testBit (fieldBits fields - 1 - (k - o)) := by
  induction fields generalizing S o with
  | nil => simp at h'; omega
  | cons f fields ih =>
    obtain ⟨w, v⟩ := f
    have hf' : ∀ f ∈ fields, f.2 < 2 ^ f.1 := fun f h => hf f (by simp [h])
    rw [fieldBits_cons] at h'
    rw [packFields, fieldsDown, fieldsDown_eq, fieldBits_cons, Nat.zero_mul, Nat.zero_add, Nat.mul_comm,
      Nat.testBit_two_pow_mul_add _ (fieldsDown_lt fields hf')]
    by_cases hk : k < o + w
    · rw [streamBit_packFields_outside _ _ _ (Or.inl hk), streamBit_packBits, if_pos ⟨h, hk⟩, if_neg (by omega)]
      congr 1
      simp only [valueIndex]
      omega
    · rw [ih _ hf' (by omega) (by omega), if_pos (by omega)]
      congr 1
      omega

/-! ## Bytes of a number -/

@[simp] theorem length_leBytes (n v : Nat) : (leBytes n v).length = n := by simp [leBytes]

@[simp] theorem length_beBytes (n v : Nat) : (beBytes n v).length = n := by simp [beBytes]

@[simp] theorem length_recordBytes (P : Params) (m : Kind) (ops : List Nat) :
    (recordBytes P m ops).length = (layout P m).len := by
  unfold recordBytes; cases P.bitOrder <;> simp

theorem streamBit_leBytes {n v k : Nat} (h : k < 8 * n) :
    streamBit .lsbFirst (Memory.ofBytes (leBytes n v)) k = v.testBit k := by
  have hb : k / 8 < n := by omega
  rw [streamBit, Memory.read_ofBytes]
  simp only [leBytes, List.getD_eq_getElem?_getD, List.getElem?_map, List.getElem?_range hb, Option.map_some,
    Option.getD_some, BitVec.getLsbD_ofNat, bitIndex, Nat.testBit_div_two_pow]
  rw [show k % 8 + 8 * (k / 8) = k by omega, decide_eq_true (by omega), Bool.true_and]

theorem streamBit_beBytes {n v k : Nat} (h : k < 8 * n) :
    streamBit .msbFirst (Memory.ofBytes (beBytes n v)) k = v.testBit (8 * n - 1 - k) := by
  have hb : k / 8 < n := by omega
  rw [streamBit, Memory.read_ofBytes]
  simp only [beBytes, List.getD_eq_getElem?_getD, List.getElem?_map, List.getElem?_range hb, Option.map_some,
    Option.getD_some, BitVec.getLsbD_ofNat, bitIndex, Nat.testBit_div_two_pow]
  rw [show 7 - k % 8 + 8 * (n - 1 - k / 8) = 8 * n - 1 - k by omega, decide_eq_true (by omega), Bool.true_and]

/-- Bytes are decided by their stream bits. -/
theorem bytes_eq_of_streamBit {order : BitOrder} {xs ys : List Byte} (hl : xs.length = ys.length)
    (hb : ∀ k, k < 8 * xs.length →
      streamBit order (Memory.ofBytes xs) k = streamBit order (Memory.ofBytes ys) k) : xs = ys := by
  refine List.ext_getElem hl fun a ha ha' => ?_
  have := read_eq_of_streamBit_eq (order := order) (a := a) fun k hk => hb k (by omega)
  simpa [Memory.read_ofBytes, ha, ha'] using this

theorem streamBit_ofBytes_toBytes (order : BitOrder) (S : Memory) {n k : Nat} (h : k < 8 * n) :
    streamBit order (Memory.ofBytes (S.toBytes n)) k = streamBit order S k := by
  rw [streamBit, streamBit, Memory.read_ofBytes_toBytes, if_pos (by omega)]

/-! ## The fields of a record -/

theorem fieldBits_recordFields {l : Layout} {ops : List Nat} (h : ops.length = l.widths.length) :
    fieldBits (recordFields l ops) = l.usedBits := by
  simp [fieldBits, recordFields, Layout.usedBits, List.map_fst_zip, h]

theorem recordFields_inRange {P : Params} {m : Kind} {ops : List Nat} (h : opsInRange (layout P m) ops) :
    ∀ f ∈ recordFields (layout P m) ops, f.2 < 2 ^ f.1 := by
  intro f hf
  rcases List.mem_cons.1 hf with rfl | hf
  · cases m <;> simp [layout]
  · exact h.2 f hf

/-- The bits of a record's bytes are those of its packed fields, and 0 in the padding. -/
theorem streamBit_recordBytes {P : Params} (hP : P.legal) {m : Kind} {ops : List Nat}
    (h : opsInRange (layout P m) ops) {k : Nat} (hk : k < 8 * (layout P m).len) :
    streamBit P.bitOrder (Memory.ofBytes (recordBytes P m ops)) k =
      streamBit P.bitOrder (packFields P.bitOrder [] 0 (recordFields (layout P m) ops)) k := by
  have hU := usedBits_le hP m
  have hbits := fieldBits_recordFields h.1
  have hf := recordFields_inRange h
  unfold recordBytes
  cases P.bitOrder with
  | lsbFirst =>
    simp only
    rw [streamBit_leBytes hk]
    by_cases hu : k < (layout P m).usedBits
    · rw [streamBit_packFields_lsb _ _ hf (Nat.zero_le k) (by omega), Nat.sub_zero]
    · rw [streamBit_packFields_outside _ _ _ (Or.inr (by omega))]
      have hlt : fieldsUp (recordFields (layout P m) ops) < 2 ^ fieldBits (recordFields (layout P m) ops) := by
        generalize recordFields (layout P m) ops = fields at hf
        clear hbits
        induction fields with
        | nil => simp [fieldsUp]
        | cons f fields ih =>
          obtain ⟨w, v⟩ := f
          have hv : v < 2 ^ w := hf (w, v) (by simp)
          have := ih fun f hf' => hf f (by simp [hf'])
          rw [fieldsUp, fieldBits_cons, Nat.pow_add]
          nlinarith
      rw [Nat.testBit_lt_two_pow (hlt.trans_le (Nat.pow_le_pow_right two_pos (by omega)))]
      simp [streamBit, Memory.read, Memory.unlisted]
  | msbFirst =>
    simp only
    rw [streamBit_beBytes hk, Nat.testBit_mul_two_pow]
    by_cases hu : k < (layout P m).usedBits
    · rw [streamBit_packFields_msb _ _ hf (Nat.zero_le k) (by omega), hbits]
      simp only [show 8 * (layout P m).len - (layout P m).usedBits ≤ 8 * (layout P m).len - 1 - k by omega,
        decide_true, Bool.true_and]
      congr 1
      omega
    · rw [streamBit_packFields_outside _ _ _ (Or.inr (by omega))]
      simp [streamBit, Memory.read, Memory.unlisted]; omega

/-- Where a stream holds the bits of a record's bytes, the record decodes to its instruction. -/
theorem decodeRecord_of_recordBytes {P : Params} (hP : P.legal) {m : Kind} {ops : List Nat}
    (h : opsInRange (layout P m) ops) {i : Instr} (hi : i.recordOps = some (m, ops)) (S : Memory) (p L : Nat)
    (hL : p + (layout P m).len ≤ L)
    (hS : ∀ k, k < 8 * (layout P m).len →
      streamBit P.bitOrder S (8 * p + k) = streamBit P.bitOrder (Memory.ofBytes (recordBytes P m ops)) k) :
    decodeRecord P S p L = .ok i := by
  have hU := usedBits_le hP m
  have hbit : ∀ k, k < (layout P m).usedBits → streamBit P.bitOrder S (8 * p + k) =
      streamBit P.bitOrder (packFields P.bitOrder [] 0 (recordFields (layout P m) ops)) k := fun k hk => by
    rw [hS k (by omega), streamBit_recordBytes hP h (by omega)]
  have htag : tagAt P S p = (layout P m).tag := by
    rw [tagAt, unpackBits_congr (o' := 0)
      (S' := packFields P.bitOrder [] 0 (recordFields (layout P m) ops)) fun j hj => by
        rw [hbit j (by rw [Layout.usedBits]; omega), Nat.zero_add]]
    exact unpackBits_packFields P.bitOrder [] _ [] 0 (tag_lt P m)
  have hfield : ∀ k (hk : k < ops.length), fieldAt P S p m k = ops[k] := by
    intro k hk
    have hk' : k < (layout P m).widths.length := h.1 ▸ hk
    have hw : (layout P m).width k = (layout P m).widths[k] := by simp [Layout.width, hk']
    have hz : k < ((layout P m).widths.zip ops).length := by simp; omega
    have hin : ops[k] < 2 ^ (layout P m).widths[k] := by
      have := h.2 (((layout P m).widths.zip ops)[k]) (List.getElem_mem hz)
      simpa using this
    have hsplit : recordFields (layout P m) ops =
        ((3, (layout P m).tag) :: ((layout P m).widths.zip ops).take k) ++
          ((layout P m).widths[k], ops[k]) :: ((layout P m).widths.zip ops).drop (k + 1) := by
      rw [recordFields, List.cons_append]
      congr 1
      conv_lhs => rw [← List.take_append_drop k ((layout P m).widths.zip ops), List.drop_eq_getElem_cons hz]
      simp
    have hoff : fieldBits ((3, (layout P m).tag) :: ((layout P m).widths.zip ops).take k) =
        (layout P m).offset k := by
      rw [fieldBits_cons, fieldBits, Layout.offset, List.map_take, List.map_fst_zip (le_of_eq h.1.symm)]
    have hle := field_le_usedBits P m hk'
    unfold fieldAt
    rw [unpackBits_congr (o' := (layout P m).offset k)
      (S' := packFields P.bitOrder [] 0 (recordFields (layout P m) ops)) fun j hj => by
        rw [Nat.add_assoc, hbit _ (by omega)]]
    rw [hw, hsplit, ← hoff]
    have := unpackBits_packFields P.bitOrder ((3, (layout P m).tag) :: ((layout P m).widths.zip ops).take k)
      (((layout P m).widths.zip ops).drop (k + 1)) [] 0 hin
    rwa [Nat.zero_add] at this
  have hops : fieldOps P m (fieldAt P S p m) = ops := by
    apply List.ext_getElem
    · simp [fieldOps, h.1]
    · intro k h1 h2
      simp only [fieldOps, List.getElem_map, List.getElem_range]
      exact hfield k h2
  rw [decodeRecord_of_tag (by rw [htag, ofTag_tag]) hL]
  have h1 := recordOps_recordInstr P m (fieldAt P S p m)
  rw [hops] at h1
  exact congrArg Except.ok (Option.some.inj ((ofOps_eq_some.2 h1).symm.trans (ofOps_eq_some.2 hi)))

namespace Machine

/-! ## EncodeRecord -/

/-- The loop of `EncodeRecord` where every operand fits (42_record_layouts.md R97). -/
theorem encodeFields_of_inRange {P : Params} {m : Kind} {n : Nat} (hn : n ≤ P.streamCap) (ws ops : List Nat) {o k : Nat}
    {S : Memory} (hl : ops.length = ws.length) (hr : ∀ f ∈ ws.zip ops, f.2 < 2 ^ f.1) (hw : ∀ w ∈ ws, w ≤ P.maxW)
    (ho : o + ws.sum ≤ 8 * n) :
    encodeFields P m n ws ops o k S = .ok (packFields P.bitOrder S o (ws.zip ops)) := by
  induction ws generalizing ops o k S with
  | nil => rfl
  | cons w ws ih =>
    cases ops with
    | nil => simp at hl
    | cons v ops =>
      rw [List.sum_cons] at ho
      have hc : check P 1 w o v n = .none :=
        check_pack_eq_none.2 ⟨hw w (by simp), hn, by omega, hr (w, v) (by simp)⟩
      rw [encodeFields, evaluate_of_pass hc]
      simp only [completed_err, Bool.false_eq_true, if_false, List.zip_cons_cons, packFields]
      exact ih ops (by simpa using hl) (fun f hf => hr f (by simp [hf])) (fun w hw' => hw w (by simp [hw'])) (by omega)

theorem widths_le {P : Params} (hP : P.legal) (m : Kind) : ∀ w ∈ (layout P m).widths, w ≤ P.maxW := by
  obtain ⟨h, -⟩ := hP
  cases m <;> simp [layout] <;> omega

/-- The tag's PACK cannot fail (R97). -/
theorem evaluate_tag {P : Params} (hP : P.legal) (m : Kind) :
    (evaluate P 1 3 0 (layout P m).tag (layout P m).len []).stream =
      packBits P.bitOrder [] 0 3 (layout P m).tag := by
  have hlen := six_le_len hP m
  have hcap := len_le_streamCap hP m
  have htag : (layout P m).tag < 2 ^ 3 := by cases m <;> simp [layout]
  have hmax := hP.1
  rw [evaluate_of_pass (check_pack_eq_none.2 ⟨by omega, hcap, by omega, htag⟩)]
  rfl

/-- `EncodeRecord` where the operands fit: the packed fields of a zeroed buffer (R97). -/
theorem encodeRecord_of_inRange {P : Params} (hP : P.legal) {m : Kind} {ops : List Nat}
    (h : opsInRange (layout P m) ops) :
    encodeRecord P m ops =
      .ok (Memory.toBytes (packFields P.bitOrder [] 0 (recordFields (layout P m) ops)) (layout P m).len) := by
  have hU := usedBits_le hP m
  rw [encodeRecord]
  simp only [h.1, ne_eq, not_true, if_false]
  rw [evaluate_tag hP, encodeFields_of_inRange (len_le_streamCap hP m) _ _ h.1 h.2 (widths_le hP m)
    (by rw [Layout.usedBits] at hU; exact hU)]
  rfl

/-- The loop of `EncodeRecord` reports the first operand that does not fit (R97, 60_exceptions.md R133). -/
theorem encodeFields_of_first_bad {P : Params} {m : Kind} {n : Nat} (hn : n ≤ P.streamCap) (ws ops : List Nat)
    {o k j : Nat} {S : Memory} (hl : ops.length = ws.length) (hw : ∀ w ∈ ws, w ≤ P.maxW) (ho : o + ws.sum ≤ 8 * n)
    (hj : j < ws.length) (hgood : ∀ i, i < j → ops.getD i 0 < 2 ^ ws.getD i 0) (hbad : 2 ^ ws.getD j 0 ≤ ops.getD j 0) :
    encodeFields P m n ws ops o k S = .error (.operandRange m (k + j) (ops.getD j 0) (ws.getD j 0)) := by
  induction ws generalizing ops o k j S with
  | nil => simp at hj
  | cons w ws ih =>
    cases ops with
    | nil => simp at hl
    | cons v ops =>
      rw [List.sum_cons] at ho
      have hww := hw w (by simp)
      cases j with
      | zero =>
        have hv : 2 ^ w ≤ v := by simpa using hbad
        have hc : check P 1 w o v n = .value := by
          rw [check_pack, if_neg (by omega), if_neg (by omega), if_pos hv]
        rw [encodeFields, evaluate_of_error (by rw [hc]; decide), hc]
        rfl
      | succ j =>
        have hc : check P 1 w o v n = .none :=
          check_pack_eq_none.2 ⟨hww, hn, by omega, by simpa using hgood 0 (by omega)⟩
        rw [encodeFields, evaluate_of_pass hc]
        simp only [completed_err, Bool.false_eq_true, if_false]
        rw [ih ops (by simpa using hl) (fun w hw' => hw w (by simp [hw'])) (by omega) (by simpa using hj)
          (fun i hi => by simpa using hgood (i + 1) (by omega)) (by simpa using hbad)]
        simp [Nat.add_assoc, Nat.add_comm 1]

/-- What `EncodeRecord` answers only where the operands fit. -/
theorem inRange_of_encodeRecord {P : Params} (hP : P.legal) {m : Kind} {ops : List Nat} {bytes : List Byte}
    (h : encodeRecord P m ops = .ok bytes) : opsInRange (layout P m) ops := by
  by_cases hl : ops.length = (layout P m).widths.length
  · refine ⟨hl, ?_⟩
    by_contra hr
    have hex : ∃ j, j < (layout P m).widths.length ∧ 2 ^ (layout P m).widths.getD j 0 ≤ ops.getD j 0 := by
      push Not at hr
      obtain ⟨f, hf, hbad⟩ := hr
      obtain ⟨j, hj, rfl⟩ := List.mem_iff_getElem.1 hf
      have hj' : j < (layout P m).widths.length := by simp at hj; omega
      exact ⟨j, hj', by simpa [hj', hl ▸ hj'] using hbad⟩
    classical
    have hfirst := Nat.find_spec hex
    have hbefore : ∀ i, i < Nat.find hex → ops.getD i 0 < 2 ^ (layout P m).widths.getD i 0 := by
      intro i hi
      have := Nat.find_min hex hi
      push Not at this
      exact this (by omega)
    have hU := usedBits_le hP m
    rw [encodeRecord] at h
    simp only [hl, ne_eq, not_true, if_false] at h
    rw [encodeFields_of_first_bad (len_le_streamCap hP m) _ _ hl (widths_le hP m)
      (by rw [Layout.usedBits] at hU; exact hU) hfirst.1 hbefore hfirst.2] at h
    exact absurd h (by simp)
  · rw [encodeRecord] at h
    simp [hl] at h

end Machine
end Sys2Proof
end

