-- ==== Sys2Proof/Laws/PerInstr.lean ====
section
/-! SUPPORT. Statements made per instruction.

`TableMatch`: an encoding has, under the mask of its row of spec/opcode_table.json, the match bits of that row
(30_encoding.md R52, R60, R61). -/

namespace Sys2Proof.Laws.TableMatch

/-- The bits the table's mask takes: the selector of a command header, the tag of a record's first byte. -/
def maskedBits : Words → Nat
  | .command b => b.cmdh.toNat % 4
  | .record bytes => (bytes.getD 0 0).toNat % 8

/-- The match column of the table. -/
def matchBits : Instr → Nat
  | .nop => 0
  | .pack _ _ _ => 1
  | .unpack _ _ => 2
  | .reservedOp3 => 3
  | .load _ _ => 2
  | .write _ _ => 3
  | .min _ _ _ => 6
  | .read _ _ _ => 7

/-- On this hardware's bit order, the encoding of `i` matches its own row. -/
def Statement (i : Instr) : Prop :=
  ∀ P : Params, P.bitOrder = .lsbFirst → P.legal → maskedBits (encode P i) = matchBits i

theorem maskedBits_header (w o v : Nat) {op : Nat} (h : op < 4) :
    maskedBits (.command { cmdh := header w op, offset := o, value := v }) = op := by
  simp only [maskedBits, header, BitVec.toNat_ofNat]
  omega

/-- Under LSB_FIRST the tag is the lowest bits of a record's first byte. -/
theorem maskedBits_record {P : Params} (hb : P.bitOrder = .lsbFirst) (hP : P.legal) (m : Kind) (ops : List Nat) :
    maskedBits (.record (recordBytes P m ops)) = (layout P m).tag := by
  have h6 := six_le_len hP m
  have ht := tag_lt P m
  simp only [maskedBits, recordBytes, hb, leBytes, List.getD_eq_getElem?_getD, List.getElem?_map]
  rw [List.getElem?_range (by omega)]
  simp only [Option.map_some, Option.getD_some, BitVec.toNat_ofNat, recordFields, fieldsUp]
  omega

theorem nop : Statement .nop := fun _ _ _ => maskedBits_header 0 0 0 (by omega)

theorem pack (w o v : Nat) : Statement (.pack w o v) := fun _ _ _ => maskedBits_header w o v (by omega)

theorem unpack (w o : Nat) : Statement (.unpack w o) := fun _ _ _ => maskedBits_header w o 0 (by omega)

theorem reservedOp3 : Statement .reservedOp3 := fun _ _ _ => maskedBits_header 0 0 0 (by omega)

theorem load (b c : Nat) : Statement (.load b c) := fun _ hb hP => maskedBits_record hb hP .load [b, c]

theorem write (b c : Nat) : Statement (.write b c) := fun _ hb hP => maskedBits_record hb hP .write [b, c]

theorem min (b c d : Nat) : Statement (.min b c d) := fun _ hb hP => maskedBits_record hb hP .min [b, c, d]

theorem read (b c d : Nat) : Statement (.read b c d) := fun _ hb hP => maskedBits_record hb hP .read [b, c, d]

end Sys2Proof.Laws.TableMatch
end

