-- ==== Sys2Proof/Laws/Step.lean ====
section
/-! SUPPORT. What a step can do, said once: one lemma per action of the host, and the inversion over all of them. -/

namespace Sys2Proof.Machine

/-! ## Records -/

theorem exec_record {i : Instr} {m : Kind} {ops : List Nat} (h : i.recordOps = some (m, ops)) (s : State) :
    exec i s = .next (s.runRecord m ops) := by
  cases i <;> simp only [Instr.recordOps, Option.some.injEq, Prod.mk.injEq, reduceCtorEq] at h <;>
    obtain ⟨rfl, rfl⟩ := h <;> rfl

theorem State.runRecord_encoding {s : State} (h : s.procedure = .encoding) (m : Kind) (ops : List Nat) :
    s.runRecord m ops = s.encode m ops := by simp [State.runRecord, h]

theorem State.runRecord_decoding {s : State} (h : s.procedure = .decoding) (m : Kind) (ops : List Nat) :
    s.runRecord m ops = s.takeRecord m ops := by simp [State.runRecord, h]

theorem State.encode_of_ok {s : State} {m : Kind} {ops : List Nat} {bytes : List Byte}
    (h : encodeRecord s.params m ops = .ok bytes) :
    s.encode m ops =
      { s with valueOut := 0, err := false, cause := .none, encoded := s.encoded ++ bytes } := by
  simp [State.encode, h, State.withOutputs, State.withEncoded]

theorem State.encode_of_error {s : State} {m : Kind} {ops : List Nat} {e : RecordError}
    (h : encodeRecord s.params m ops = .error e) :
    s.encode m ops = { s.afterEncodeError e with encoded := [], halt := some (.record e) } := by
  simp [State.encode, h, State.withEncoded, State.stop]

/-- An encode that fails changes the outputs, or nothing, before the run ends (log 14). -/
theorem State.afterEncodeError_cases (s : State) (e : RecordError) :
    s.afterEncodeError e = s ∨ s.afterEncodeError e = { s with valueOut := 0, err := true, cause := .value } := by
  cases e
  · exact .inl rfl
  · exact .inr rfl
  · exact .inl rfl
  · exact .inl rfl

/-- Everything an encode can do. -/
theorem State.encode_cases (s : State) (m : Kind) (ops : List Nat) :
    (∃ bytes, encodeRecord s.params m ops = .ok bytes ∧
      s.encode m ops =
        { s with valueOut := 0, err := false, cause := .none, encoded := s.encoded ++ bytes }) ∨
    (∃ e, encodeRecord s.params m ops = .error e ∧
      (s.encode m ops = { s with encoded := [], halt := some (.record e) } ∨
       s.encode m ops =
        { s with valueOut := 0, err := true, cause := .value, encoded := [], halt := some (.record e) })) := by
  cases h : encodeRecord s.params m ops with
  | ok bytes => exact .inl ⟨bytes, rfl, State.encode_of_ok h⟩
  | error e =>
    refine .inr ⟨e, rfl, ?_⟩
    rw [State.encode_of_error h]
    rcases s.afterEncodeError_cases e with h' | h' <;> rw [h']
    · exact .inl rfl
    · exact .inr rfl

/-- What an encode leaves as it was. -/
theorem State.encode_frame (s : State) (m : Kind) (ops : List Nat) :
    (s.encode m ops).params = s.params ∧ (s.encode m ops).mem = s.mem ∧ (s.encode m ops).len = s.len ∧
      (s.encode m ops).p = s.p ∧ (s.encode m ops).records = s.records ∧ (s.encode m ops).walk = s.walk ∧
      (s.encode m ops).index = s.index ∧ (s.encode m ops).vals = s.vals ∧
      (s.encode m ops).agenda = s.agenda ∧ (s.encode m ops).procedure = s.procedure := by
  rcases s.encode_cases m ops with ⟨b, -, h⟩ | ⟨e, -, h | h⟩ <;> rw [h] <;> simp

/-- A record added at the end of records without gaps. -/
theorem contiguous_snoc {P : Params} {a b : Nat} {rs : List WalkRecord} (m : Kind) (ops : List Nat)
    (h : contiguous P a rs b) :
    contiguous P a (rs ++ [{ pos := b, kind := m, ops := ops }]) (b + (layout P m).len) := by
  induction rs generalizing a with
  | nil => obtain rfl : a = b := h; exact ⟨rfl, rfl⟩
  | cons r rs ih => exact ⟨h.1, ih h.2⟩

/-! ## The host's actions -/

theorem step_of_ended {s : State} (h : s.ended) : step s = .next s := by
  unfold step State.next
  cases hh : s.halt with
  | some x => rfl
  | none =>
    rcases h with h | h
    · exact absurd hh h
    · simp [h]

theorem step_of_action {s : State} {a : Action} {rest : List Action} (hh : s.halt = none) (ha : s.agenda = a :: rest) :
    step s = match s.perform a rest with
      | .settled t => .next t
      | .run i t => exec i t
      | .stuck f => .fault f := by
  have h : s.next = s.perform a rest := by simp only [State.next, hh, ha]
  exact congrArg (fun w : Work => match w with
    | .settled t => Host.Outcome.next t
    | .run i t => exec i t
    | .stuck f => .fault f) h

/-- An encode runs the record instruction, or reports the count; either way it is the host's encode. -/
theorem step_of_encode {s : State} {m : Kind} {ops : List Nat} {rest : List Action} (hh : s.halt = none)
    (ha : s.agenda = .encode m ops :: rest) :
    ∃ q, (q = .encoding ∨ q = s.procedure ∧ Instr.ofOps m ops = none) ∧
      step s = .next (({ s with agenda := rest, procedure := q } : State).encode m ops) := by
  rw [step_of_action hh ha]
  cases ho : Instr.ofOps m ops with
  | none =>
    refine ⟨s.procedure, .inr ⟨rfl, rfl⟩, ?_⟩
    simp only [State.perform, State.encodeTurn, ho]
    rfl
  | some i =>
    refine ⟨.encoding, .inl rfl, ?_⟩
    simp only [State.perform, State.encodeTurn, ho, exec_record (ofOps_eq_some.1 ho)]
    rw [State.runRecord_encoding rfl]
    rfl

/-- The agenda a turn of the walk leaves while the walk goes on. -/
def walkAgain (a : Action) (rest again : List Action) : Prop :=
  a = .walkStep ∧ again = rest ∨ a = .walk ∧ again = a :: rest

theorem perform_walk {s : State} {a : Action} {rest again : List Action} (h : walkAgain a rest again) :
    s.perform a rest = s.walkTurn rest again := by
  rcases h with ⟨rfl, rfl⟩ | ⟨rfl, rfl⟩ <;> rfl

theorem step_of_walk_done {s : State} {a : Action} {rest again : List Action} (hh : s.halt = none)
    (ha : s.agenda = a :: rest) (hw : walkAgain a rest again) (hp : s.p = s.len) :
    step s = .next { s with agenda := rest, walk := .done } := by
  rw [step_of_action hh ha, perform_walk hw, State.walkTurn, if_neg (by omega), if_pos hp]
  rfl

theorem step_of_walk_error {s : State} {a : Action} {rest again : List Action} {e : RecordError} (hh : s.halt = none)
    (ha : s.agenda = a :: rest) (hw : walkAgain a rest again) (hp : s.p < s.len)
    (hd : decodeRecord s.params s.mem s.p s.len = .error e) :
    step s = .next { s with
      agenda := again, valueOut := tagAt s.params s.mem s.p, err := false, cause := .none
      halt := some (.record e) } := by
  rw [step_of_action hh ha, perform_walk hw, State.walkTurn, if_neg (by omega), if_neg (by omega), hd]
  rfl

theorem step_of_walk_record {s : State} {a : Action} {rest again : List Action} {i : Instr} (hh : s.halt = none)
    (ha : s.agenda = a :: rest) (hw : walkAgain a rest again) (hp : s.p < s.len)
    (hd : decodeRecord s.params s.mem s.p s.len = .ok i) :
    step s = exec i { s with agenda := again, procedure := .decoding } := by
  rw [step_of_action hh ha, perform_walk hw, State.walkTurn, if_neg (by omega), if_neg (by omega), hd]
  rfl

theorem step_of_walk_beyond {s : State} {a : Action} {rest again : List Action} (hh : s.halt = none)
    (ha : s.agenda = a :: rest) (hw : walkAgain a rest again) (hp : s.len < s.p) :
    step s = .fault .pointerBeyondStream := by
  rw [step_of_action hh ha, perform_walk hw, State.walkTurn, if_pos hp]

/-- A record the walk decodes, as a state. -/
theorem step_of_walk_take {s : State} {a : Action} {rest again : List Action} {i : Instr} {m : Kind} {ops : List Nat}
    (hh : s.halt = none) (ha : s.agenda = a :: rest) (hw : walkAgain a rest again) (hp : s.p < s.len)
    (hd : decodeRecord s.params s.mem s.p s.len = .ok i) (hi : i.recordOps = some (m, ops)) :
    step s = .next { s with
      agenda := again, procedure := .decoding, valueOut := ops.getLastD 0, err := false, cause := .none
      walk := .running, records := s.records ++ [{ pos := s.p, kind := m, ops := ops }]
      p := s.p + (layout s.params m).len } := by
  rw [step_of_walk_record hh ha hw hp hd, exec_record hi, State.runRecord_decoding rfl]
  rfl

/-- Everything a step that answers a next state can have done. -/
inductive Stepped (s t : State) : Prop where
  | ended (h : s.ended) (ht : t = s)
  | present (bytes : List Byte) (n : Nat) (rest : List Action) (hh : s.halt = none)
      (ha : s.agenda = .present bytes n :: rest)
      (ht : t = (s.withAgenda rest).presentStream (.ofBytes bytes) n)
  | command (b : Bundle) (rest : List Action) (hh : s.halt = none) (ha : s.agenda = .command b :: rest)
      (ht : t = (s.withAgenda rest).runCommand b.op b.w b.o b.v)
  | startEncode (rest : List Action) (hh : s.halt = none) (ha : s.agenda = .startEncode :: rest)
      (ht : t = (s.withAgenda rest).withEncoded [])
  | encode (m : Kind) (ops : List Nat) (rest : List Action) (q : Procedure) (hh : s.halt = none)
      (ha : s.agenda = .encode m ops :: rest)
      (ht : t = ((s.withAgenda rest).withProcedure q).encode m ops)
  | presentEncoded (rest : List Action) (hh : s.halt = none) (ha : s.agenda = .presentEncoded :: rest)
      (ht : t = (s.withAgenda rest).presentStream (.ofBytes s.encoded) s.encoded.length)
  | startWalk (rest : List Action) (hh : s.halt = none) (ha : s.agenda = .startWalk :: rest)
      (ht : t = (s.withAgenda rest).startWalk)
  | walkDone (a : Action) (rest again : List Action) (hh : s.halt = none) (ha : s.agenda = a :: rest)
      (hw : walkAgain a rest again) (hp : s.p = s.len)
      (ht : t = { s with agenda := rest, walk := .done })
  | walkError (a : Action) (rest again : List Action) (e : RecordError) (hh : s.halt = none)
      (ha : s.agenda = a :: rest) (hw : walkAgain a rest again) (hp : s.p < s.len)
      (hd : decodeRecord s.params s.mem s.p s.len = .error e)
      (ht : t = { s with
        agenda := again, valueOut := tagAt s.params s.mem s.p, err := false, cause := .none
        halt := some (.record e) })
  | walkTake (a : Action) (rest again : List Action) (i : Instr) (m : Kind) (ops : List Nat) (hh : s.halt = none)
      (ha : s.agenda = a :: rest) (hw : walkAgain a rest again) (hp : s.p < s.len)
      (hd : decodeRecord s.params s.mem s.p s.len = .ok i) (hi : i.recordOps = some (m, ops))
      (ht : t = { s with
        agenda := again, procedure := .decoding, valueOut := ops.getLastD 0, err := false, cause := .none
        walk := .running, records := s.records ++ [{ pos := s.p, kind := m, ops := ops }]
        p := s.p + (layout s.params m).len })

theorem stepped_of_walk {s t : State} {a : Action} {rest again : List Action} (hh : s.halt = none)
    (ha : s.agenda = a :: rest) (hw : walkAgain a rest again) (h : step s = .next t) : Stepped s t := by
  rcases lt_trichotomy s.p s.len with hp | hp | hp
  · cases hd : decodeRecord s.params s.mem s.p s.len with
    | error e =>
      rw [step_of_walk_error hh ha hw hp hd] at h
      injection h with ht
      exact .walkError a rest again e hh ha hw hp hd ht.symm
    | ok i =>
      obtain ⟨m, -, -, -, hi⟩ := decodeRecord_eq_ok hd
      rw [step_of_walk_take hh ha hw hp hd hi] at h
      injection h with ht
      exact .walkTake a rest again i m _ hh ha hw hp hd hi ht.symm
  · rw [step_of_walk_done hh ha hw hp] at h
    injection h with ht
    exact .walkDone a rest again hh ha hw hp ht.symm
  · rw [step_of_walk_beyond hh ha hw hp] at h
    exact absurd h (by simp)

/-- The inversion of `step`: whatever it answers next, one of the host's actions did it. -/
theorem step_cases {s t : State} (h : step s = .next t) : Stepped s t := by
  cases hh : s.halt with
  | some x =>
    have he : s.ended := .inl (by simp [hh])
    rw [step_of_ended he] at h
    injection h with ht
    exact .ended he ht.symm
  | none =>
    cases ha : s.agenda with
    | nil =>
      have he : s.ended := .inr ha
      rw [step_of_ended he] at h
      injection h with ht
      exact .ended he ht.symm
    | cons a rest =>
      cases a with
      | present bytes n =>
        rw [step_of_action hh ha] at h
        injection h with ht
        exact .present bytes n rest hh ha ht.symm
      | command b =>
        rw [step_of_action hh ha] at h
        change exec (decodeCommand b) (s.withAgenda rest) = .next t at h
        rw [exec_decodeCommand] at h
        injection h with ht
        exact .command b rest hh ha ht.symm
      | startEncode =>
        rw [step_of_action hh ha] at h
        injection h with ht
        exact .startEncode rest hh ha ht.symm
      | encode m ops =>
        obtain ⟨q, -, hs⟩ := step_of_encode hh ha
        rw [hs] at h
        injection h with ht
        exact .encode m ops rest q hh ha ht.symm
      | presentEncoded =>
        rw [step_of_action hh ha] at h
        injection h with ht
        exact .presentEncoded rest hh ha ht.symm
      | startWalk =>
        rw [step_of_action hh ha] at h
        injection h with ht
        exact .startWalk rest hh ha ht.symm
      | walkStep => exact stepped_of_walk hh ha (.inl ⟨rfl, rfl⟩) h
      | walk => exact stepped_of_walk hh ha (.inr ⟨rfl, rfl⟩) h

/-! ## Runs -/

theorem run_zero (s : State) : core.run 0 s = .next s := rfl

theorem run_step {s t : State} (n : Nat) (h : step s = .next t) : core.run (n + 1) s = core.run n t := by
  have h' : core.step s = .next t := h
  simp only [Host.Core.run, h']

/-- The first step of a run that answers a next state. -/
theorem run_next {s t : State} {n : Nat} (h : core.run (n + 1) s = .next t) :
    ∃ u, step s = .next u ∧ core.run n u = .next t := by
  cases hs : core.step s with
  | next u => exact ⟨u, hs, by simpa only [Host.Core.run, hs] using h⟩
  | fault r => simp [Host.Core.run, hs] at h
  | refused r => simp [Host.Core.run, hs] at h

/-- A run in two parts. -/
theorem run_add {s t : State} {m : Nat} (n : Nat) (h : core.run m s = .next t) :
    core.run (m + n) s = core.run n t := by
  induction m generalizing s with
  | zero =>
    rw [run_zero] at h
    injection h with h
    rw [Nat.zero_add, h]
  | succ m ih =>
    obtain ⟨u, hu, h⟩ := run_next h
    rw [Nat.add_right_comm, run_step _ hu, ih h]

/-- What holds at the start and is kept by every step holds along every run. -/
theorem run_induction {Q : State → Prop} (hstep : ∀ s t, Q s → step s = .next t → Q t) {n : Nat} {s t : State}
    (hs : Q s) (h : core.run n s = .next t) : Q t := by
  induction n generalizing s with
  | zero =>
    rw [run_zero] at h
    injection h with h
    exact h ▸ hs
  | succ n ih =>
    obtain ⟨u, hu, h⟩ := run_next h
    exact ih (hstep s u hs hu) h

end Sys2Proof.Machine
end

