-- ==== Sys2Proof/Tests/Slice0.lean ====
section
/-! SUPPORT. Tests with expected results from 95_test_vectors.md (its ids are named) and from words written out bit by bit
after 30_encoding.md, and for every claim with hypotheses a witness that meets them together. -/

namespace Sys2Proof.Tests

open Sys2Proof.Machine

/-- This hardware with a stream. -/
def withBytes (bytes : List Byte) : State :=
  { State.reset with mem := Memory.ofBytes bytes, len := bytes.length }

/-- The same block under the alternative bit order. -/
def msbParams : Params := { Config.bfc64 with bitOrder := .msbFirst }

def msbWithBytes (bytes : List Byte) : State := { withBytes bytes with params := msbParams }

/-- The state an outcome goes on with. -/
def nextOf : Host.Outcome State Fault Refusal → Option State
  | .next t => some t
  | .fault _ => none
  | .refused _ => none

/-- What a test looks at: `stream_out`, `value_out`, `err` and the code of `cause`. -/
def outputs (o : Host.Outcome State Fault Refusal) : Option (List Byte × Nat × Bool × BitVec 3) :=
  (nextOf o).map fun t => (t.mem.toBytes t.len, t.valueOut, t.err, t.cause.code)

/-- One command bundle, decoded and run. -/
def present (s : State) (h : BitVec 8) (o v : Nat) : Option (List Byte × Nat × Bool × BitVec 3) :=
  outputs (exec (decodeCommand { cmdh := h, offset := o, value := v }) s)

/-- The records an outcome's walk holds, and where its pointer stands. -/
def walked (o : Host.Outcome State Fault Refusal) : Option (List WalkRecord × Nat) :=
  (nextOf o).map fun t => (t.records, t.p)

def haltOf (o : Host.Outcome State Fault Refusal) : Option Halt := (nextOf o).bind State.halt

/-- The host about to walk a stream. -/
def walking (bytes : List Byte) : State := { withBytes bytes with agenda := [.walk] }

/-- The host about to encode one record. -/
def encoding (m : Kind) (ops : List Nat) : State := { State.reset with agenda := [.encode m ops] }

/-- Scenario A's bytes (95_test_vectors.md, 1.1). -/
def scenarioA : List Byte := [0xA2#8, 0x00#8, 0x50#8, 0x36#8, 0x00#8, 0x00#8]

/-! ## WellFormed refuses an ill-formed term, one for each check -/

theorem test_wf_pack_width : (Instr.pack 64 0 0).wf Config.bfc64 = false := by decide
theorem test_wf_pack_offset : (Instr.pack 3 1024 0).wf Config.bfc64 = false := by decide
theorem test_wf_pack_value : (Instr.pack 3 0 4294967296).wf Config.bfc64 = false := by decide
theorem test_wf_unpack_width : (Instr.unpack 64 0).wf Config.bfc64 = false := by decide
theorem test_wf_unpack_offset : (Instr.unpack 3 1024).wf Config.bfc64 = false := by decide
theorem test_wf_load_b : (Instr.load 131072 0).wf Config.bfc64 = false := by decide
theorem test_wf_load_c : (Instr.load 0 8388608).wf Config.bfc64 = false := by decide
theorem test_wf_write_b : (Instr.write 8388608 0).wf Config.bfc64 = false := by decide
theorem test_wf_write_c : (Instr.write 0 8388608).wf Config.bfc64 = false := by decide
theorem test_wf_min_b : (Instr.min 8388608 0 0).wf Config.bfc64 = false := by decide
theorem test_wf_min_c : (Instr.min 0 8388608 0).wf Config.bfc64 = false := by decide
theorem test_wf_min_d : (Instr.min 0 0 8388608).wf Config.bfc64 = false := by decide
theorem test_wf_read_b : (Instr.read 1024 0 0).wf Config.bfc64 = false := by decide
theorem test_wf_read_c : (Instr.read 0 8388608 0).wf Config.bfc64 = false := by decide
theorem test_wf_read_d : (Instr.read 0 0 8388608).wf Config.bfc64 = false := by decide

/-! ## Decoding of words written out from the encodings -/

/-- R51, R52: CMDH[1:0] = 00; the rest is ignored. -/
theorem test_decode_nop : decodeTableWord 8 0b11111100 = some .nop := by decide

/-- R51: the header 0x5D of vector P20, with its operand ports. -/
theorem test_decode_pack : decodeCommand { cmdh := 0b01011101#8, offset := 20, value := 869 } = .pack 23 20 869 := by
  decide

/-- R51, R54: W = 40, wider than the datapath, is still read (vector U9). -/
theorem test_decode_unpack : decodeCommand { cmdh := 0b10100010#8, offset := 0, value := 255 } = .unpack 40 0 := by
  decide

theorem test_decode_reserved : decodeCommand { cmdh := 0b10000111#8, offset := 100, value := 7 } = .reservedOp3 := by
  decide

/-- R62, all fields at their maximum and all padding bits 1. -/
theorem test_decode_load :
    decodeTableWord 48 0b11111_11111111111111111111111_11111111111111111_010 = some (.load 131071 8388607) := by decide

/-- R63, a 1 at each end of each field. -/
theorem test_decode_write :
    decodeTableWord 56 0b0000000_10000000000000000000001_10000000000000000000001_011 =
      some (.write 4194305 4194305) := by decide

/-- R64, vector E15. -/
theorem test_decode_min :
    decodeTableWord 80 0b00000000_00000000000000000000011_00000000000000000000010_00000000000000000000001_110 =
      some (.min 1 2 3) := by decide

/-- R65, vector E17. -/
theorem test_decode_read :
    decodeTableWord 64 0b00000_00000000000000000000001_10000000000000000000000_1000000000_111 =
      some (.read 512 4194304 1) := by decide

/-- R61: tags 0, 1, 4 and 5 are no record. -/
theorem test_decode_unused_tags :
    decodeTableWord 48 0b000 = none ∧ decodeTableWord 48 0b001 = none ∧
      decodeTableWord 48 0b100 = none ∧ decodeTableWord 48 0b101 = none := by decide

/-! ## Commands -/

/-- N1. -/
theorem test_nop : present (withBytes [0x12#8, 0x34#8]) 0xFC#8 1000 7 = some ([0x12#8, 0x34#8], 0, false, 0) := by decide

/-- P3. -/
theorem test_pack_keeps_neighbours :
    present (withBytes [0xFF#8, 0xFF#8, 0xFF#8, 0xFF#8]) 0x29#8 3 0 =
      some ([0x07#8, 0xE0#8, 0xFF#8, 0xFF#8], 0, false, 0) := by decide

/-- M2. -/
theorem test_pack_msb :
    present (msbWithBytes [0#8, 0#8, 0#8, 0#8]) 0x29#8 3 0x3FF =
      some ([0x1F#8, 0xF8#8, 0x00#8, 0x00#8], 0, false, 0) := by decide

/-- U3. -/
theorem test_unpack : present (withBytes scenarioA) 0x5E#8 20 0 = some (scenarioA, 869, false, 0) := by decide

/-- M8. -/
theorem test_unpack_msb :
    present (msbWithBytes [0x40#8, 0x01#8, 0x40#8, 0x00#8, 0x6C#8, 0xA0#8]) 0x46#8 3 0 =
      some ([0x40#8, 0x01#8, 0x40#8, 0x00#8, 0x6C#8, 0xA0#8], 20, false, 0) := by decide

/-- P21. -/
theorem test_reserved : present (withBytes [0#8]) 0x87#8 100 0xFFFFFFFF = some ([0#8], 0, true, 4) := by decide

/-- P22, P16, P15, P12: the order of the checks, and width 0. -/
theorem test_check_order :
    present (withBytes [0#8]) 0x85#8 100 0xFFFFFFFF = some ([0#8], 0, true, 3) ∧
    present (withBytes [0#8, 0#8]) 0x11#8 20 16 = some ([0#8, 0#8], 0, true, 1) ∧
    present (withBytes [0x12#8, 0x34#8]) 0x01#8 0 1 = some ([0x12#8, 0x34#8], 0, true, 2) ∧
    present (withBytes [0x12#8, 0x34#8]) 0x01#8 16 0 = some ([0x12#8, 0x34#8], 0, false, 0) := ⟨rfl, rfl, rfl, rfl⟩

/-- P23, N2: a length above STREAM_CAP. -/
theorem test_length_above_cap :
    ((nextOf (exec (.pack 3 0 0) { State.reset with len := 65 })).map fun t => (t.err, t.cause)) = some (true, .bounds) ∧
    ((nextOf (exec .nop { State.reset with len := 65 })).map fun t => (t.err, t.cause)) = some (false, .none) := by decide

/-- 2.4: the windows and masks of P3 and U3, and P2 under MSB_FIRST. -/
theorem test_datapath :
    Datapath.gather .lsbFirst (Memory.ofBytes [0xFF#8, 0xFF#8, 0xFF#8, 0xFF#8]) 3 10 = 0xFFFF ∧
    Datapath.merged .lsbFirst (Memory.ofBytes [0xFF#8, 0xFF#8, 0xFF#8, 0xFF#8]) 3 10 0 = 0xE007 ∧
    Datapath.gather .lsbFirst (Memory.ofBytes scenarioA) 20 23 = 0x3650 ∧
    Datapath.mask .lsbFirst 20 23 = 0x7FFFFF0 ∧ Datapath.merged .msbFirst [] 3 10 0x3FF = 0x1FF8 := by decide

/-! ## Records -/

/-- E1, E1 under MSB_FIRST (1.2). -/
theorem test_load_encode :
    ((nextOf (step (encoding .load [20, 869]))).map State.encoded) = some scenarioA ∧
    ((nextOf (step { encoding .load [20, 869] with params := msbParams })).map State.encoded) =
      some [0x40#8, 0x01#8, 0x40#8, 0x00#8, 0x6C#8, 0xA0#8] := by decide +kernel

/-- W10. -/
theorem test_load_walk :
    walked (step (walking [0xFA#8, 0#8, 0#8, 0#8, 0#8, 0#8])) =
      some ([{ pos := 0, kind := .load, ops := [31, 0] }], 6) := by decide

/-- E2. -/
theorem test_write_encode :
    ((nextOf (step (encoding .write [106, 685]))).map State.encoded) =
      some [0x53#8, 0x03#8, 0x00#8, 0xB4#8, 0x0A#8, 0x00#8, 0x00#8] := by decide +kernel

/-- E16, walked. -/
theorem test_write_walk :
    walked (step (walking [0x0B#8, 0#8, 0#8, 0#8, 0#8, 0#8, 0x01#8])) =
      some ([{ pos := 0, kind := .write, ops := [1, 4194304] }], 7) := by decide

/-- E3. -/
theorem test_min_encode :
    ((nextOf (step (encoding .min [326, 197, 834]))).map State.encoded) =
      some [0x36#8, 0x0A#8, 0x00#8, 0x14#8, 0x03#8, 0x00#8, 0x84#8, 0x06#8, 0x00#8, 0x00#8] := by decide +kernel

/-- W11. -/
theorem test_min_walk :
    walked (step (walking [0x36#8, 0x0A#8, 0x00#8, 0x14#8, 0x03#8, 0x00#8, 0x84#8, 0x06#8, 0x00#8, 0x00#8])) =
      some ([{ pos := 0, kind := .min, ops := [326, 197, 834] }], 10) := by decide

/-- E4. -/
theorem test_read_encode :
    ((nextOf (step (encoding .read [5, 100, 200]))).map State.encoded) =
      some [0x2F#8, 0x80#8, 0x0C#8, 0x00#8, 0x80#8, 0x0C#8, 0x00#8, 0x00#8] := by decide +kernel

/-- W8: padding bits of 1 are ignored. -/
theorem test_read_walk :
    walked (step (walking (List.replicate 8 0xFF#8))) =
      some ([{ pos := 0, kind := .read, ops := [1023, 8388607, 8388607] }], 8) := by decide

/-- X4, X8. -/
theorem test_encode_errors :
    haltOf (step (encoding .min [1, 8388608, 8388608])) = some (.record (.operandRange .min 2 8388608 23)) ∧
    haltOf (step (encoding .load [131072, 1, 2])) = some (.record (.operandCountMismatch .load 3 2)) := by decide

/-- W2, W12, W9. -/
theorem test_walk_errors :
    haltOf (step (walking [0x36#8, 0x0A#8, 0x00#8, 0x14#8, 0x03#8, 0x00#8, 0x84#8, 0x06#8, 0x00#8])) =
      some (.record (.truncatedProgram 0 6 10 9)) ∧
    haltOf (step (walking [0x04#8])) = some (.record (.unknownOpcodeTag 0 4)) ∧
    haltOf (step (walking (List.replicate 7 0xFF#8))) = some (.record (.truncatedProgram 0 7 8 7)) := by decide

/-- W3: an empty program is Done at once. -/
theorem test_walk_empty : (nextOf (step (walking []))).map State.walk = some .done := by decide

/-- Memory keeps its canonical form when a byte goes back to 0x00. -/
theorem test_memory_canonical : (Memory.ofBytes [1#8, 2#8]).write 0 0#8 = [(1, 2#8)] := by decide

/-- A table word placed after reset is what the next step runs. -/
theorem test_fetch_command :
    step (State.reset.withFetchWord 8 0b00000011) = exec .reservedOp3 State.reset := rfl

theorem test_fetch_record :
    walked (step (State.reset.withFetchWord 48 0x365000A2)) =
      some ([{ pos := 0, kind := .load, ops := [20, 869] }], 6) := by decide

/-! ## Witnesses: concrete inputs that meet a claim's hypotheses together, at the ends of their ranges -/

theorem witness_NopPassesStreamThrough : ({ cmdh := 0xFC#8, offset := 1000, value := 7 } : Bundle).op = 0 := by decide

/-- A width of `MAX_W` at the stream's end, and width 0 at `o = 8L`; each bit order has a first and a last bit. -/
theorem witness_PackWritesExactlyItsField :
    (32 ≤ (withBytes [0#8, 0#8, 0#8, 0#8, 0#8]).params.maxW ∧ (withBytes [0#8, 0#8, 0#8, 0#8, 0#8]).len ≤
      (withBytes [0#8, 0#8, 0#8, 0#8, 0#8]).params.streamCap ∧
      8 + 32 ≤ 8 * (withBytes [0#8, 0#8, 0#8, 0#8, 0#8]).len ∧ 4294967295 < 2 ^ 32) ∧
    (0 ≤ (withBytes [1#8]).params.maxW ∧ (withBytes [1#8]).len ≤ (withBytes [1#8]).params.streamCap ∧
      8 + 0 ≤ 8 * (withBytes [1#8]).len ∧ 0 < 2 ^ 0) ∧
    ((withBytes [1#8]).params.bitOrder = .lsbFirst ∧ 0 < 32 ∧ 31 < 32) ∧
    ((msbWithBytes [1#8]).params.bitOrder = .msbFirst ∧ 0 < 32 ∧ 31 < 32) ∧
    (7 < 8 ∨ 8 + 32 ≤ 7) ∧ (40 < 8 ∨ 8 + 32 ≤ 40) := by decide

theorem witness_PackMergesIntoLittleEndianInteger :
    (withBytes scenarioA).params.bitOrder = .lsbFirst ∧ 23 ≤ (withBytes scenarioA).params.maxW ∧
      (withBytes scenarioA).len ≤ (withBytes scenarioA).params.streamCap ∧ 25 + 23 ≤ 8 * (withBytes scenarioA).len ∧
      8388607 < 2 ^ 23 := by decide

theorem witness_UnpackReadsItsField :
    (32 ≤ (withBytes scenarioA).params.maxW ∧ (withBytes scenarioA).len ≤ (withBytes scenarioA).params.streamCap ∧
      16 + 32 ≤ 8 * (withBytes scenarioA).len) ∧
    (withBytes scenarioA).params.bitOrder = .lsbFirst ∧ (msbWithBytes scenarioA).params.bitOrder = .msbFirst ∧
    0 < 32 ∧ 31 < 32 := by decide

theorem witness_ReservedSelectorIsIllegal : ({ cmdh := 0x87#8, offset := 100, value := 7 } : Bundle).op = 3 := by decide

/-- One bundle for each cause. -/
theorem witness_ErrorReportLeavesStream :
    check Config.bfc64 3 33 100 0 1 = .illegalOp ∧ check Config.bfc64 1 33 100 0 1 = .width ∧
    check Config.bfc64 2 4 13 0 2 = .bounds ∧ check Config.bfc64 1 3 0 8 2 = .value ∧
    (∀ c : Cause, c = .illegalOp ∨ c = .width ∨ c = .bounds ∨ c = .value → c ≠ .none) :=
  ⟨by decide, by decide, by decide, by decide, by rintro c (rfl | rfl | rfl | rfl) <;> decide⟩

/-- The clauses at the values where they meet: `w = MAX_W` and one more, `o + w = 8L` and one more, `L = STREAM_CAP` and
one more, `v = 2^w - 1` and one more. -/
theorem witness_FirstFailingCheckIsReported :
    (check Config.bfc64 1 32 8 0 5, check Config.bfc64 1 33 8 0 5) = (.none, .width) ∧
    (check Config.bfc64 2 3 13 0 2, check Config.bfc64 2 3 14 0 2) = (.none, .bounds) ∧
    (check Config.bfc64 2 3 0 0 64, check Config.bfc64 2 3 0 0 65) = (.none, .bounds) ∧
    (check Config.bfc64 1 3 0 7 2, check Config.bfc64 1 3 0 8 2, check Config.bfc64 1 3 14 8 2) =
      (.none, .value, .bounds) := by decide

theorem witness_UnpackReturnsWhatPackWrote :
    ∃ t, exec (.pack 3 13 7) (withBytes [0#8, 0#8]) = .next t ∧ t.err = false := ⟨_, rfl, by decide⟩

/-- Bits just below and just above the field `[5, 8)` of a stream of 16 bits. -/
theorem witness_PackFramesOtherBits :
    (∃ t, exec (.pack 3 5 7) (withBytes [0#8, 0#8]) = .next t ∧ t.err = false) ∧
    (4 < 8 * 2 ∧ ¬(5 ≤ 4 ∧ 4 < 5 + 3)) ∧ (8 < 8 * 2 ∧ ¬(5 ≤ 8 ∧ 8 < 5 + 3)) :=
  ⟨⟨_, rfl, by decide⟩, by decide, by decide⟩

/-- A field in byte 1 of three; bytes 0 and 2 are outside. -/
theorem witness_PackKeepsUntouchedBytes :
    (∃ t, exec (.pack 8 8 255) (withBytes [0#8, 0#8, 0#8]) = .next t) ∧
    (0 < Datapath.firstByte 8 ∨ Datapath.firstByte 8 + Datapath.bytesTouched 8 8 ≤ 0) ∧
    (2 < Datapath.firstByte 8 ∨ Datapath.firstByte 8 + Datapath.bytesTouched 8 8 ≤ 2) :=
  ⟨⟨_, rfl⟩, by decide, by decide⟩

theorem witness_RepackIsIdentity :
    (withBytes [0x12#8, 0x34#8]).mem.wf = true ∧
      ∃ t, exec (.unpack 8 4) (withBytes [0x12#8, 0x34#8]) = .next t ∧ t.err = false :=
  ⟨by decide, _, rfl, by decide⟩

theorem witness_LastPackWins :
    (withBytes [0x12#8, 0x34#8]).mem.wf = true ∧
      ∃ s1 s2, exec (.pack 8 4 0xAB) (withBytes [0x12#8, 0x34#8]) = .next s1 ∧ s1.err = false ∧
        exec (.pack 8 4 0xCD) s1 = .next s2 ∧ s2.err = false :=
  ⟨by decide, _, _, rfl, by decide, rfl, by decide⟩

/-- Neighbouring fields, and an empty field inside the other one. -/
theorem witness_DisjointPacksCommute :
    (withBytes [0x12#8, 0x34#8]).mem.wf = true ∧
    ((∀ k, ¬((5 ≤ k ∧ k < 5 + 3) ∧ (8 ≤ k ∧ k < 8 + 4))) ∧
      ∃ s1 s2, exec (.pack 3 5 7) (withBytes [0x12#8, 0x34#8]) = .next s1 ∧ s1.err = false ∧
        exec (.pack 4 8 9) s1 = .next s2 ∧ s2.err = false) ∧
    ((∀ k, ¬((6 ≤ k ∧ k < 6 + 0) ∧ (5 ≤ k ∧ k < 5 + 3))) ∧
      ∃ s1 s2, exec (.pack 0 6 0) (withBytes [0x12#8, 0x34#8]) = .next s1 ∧ s1.err = false ∧
        exec (.pack 3 5 7) s1 = .next s2 ∧ s2.err = false) :=
  ⟨by decide, ⟨fun k => by omega, _, _, rfl, by decide, rfl, by decide⟩,
    ⟨fun k => by omega, _, _, rfl, by decide, rfl, by decide⟩⟩

/-- Two hosts that differ in all but the command's inputs. -/
theorem witness_OutputsDependOnInputsAlone :
    (withBytes [7#8]).params = ({ withBytes [7#8] with p := 1, index := 5, vals := [3] } : State).params ∧
    (withBytes [7#8]).mem = ({ withBytes [7#8] with p := 1, index := 5, vals := [3] } : State).mem ∧
    (withBytes [7#8]).len = ({ withBytes [7#8] with p := 1, index := 5, vals := [3] } : State).len := by decide

/-- Streams that agree on the field `[4, 8)` and nowhere in the low nibble. -/
theorem witness_UnpackIgnoresOtherBits :
    ∀ k, 4 ≤ k → k < 4 + 4 →
      streamBit (withBytes [0xA0#8]).params.bitOrder (Memory.ofBytes [0xAF#8]) k =
        streamBit (withBytes [0xA0#8]).params.bitOrder (withBytes [0xA0#8]).mem k := by
  intro k h h'
  interval_cases k <;> decide

/-- An instruction that is no PACK, and the first byte beyond the stream. -/
theorem witness_OnlyPackWritesTheStream :
    (∀ w o v, Instr.unpack 3 0 ≠ .pack w o v) ∧ (withBytes scenarioA).len ≤ 6 := ⟨by simp, by decide⟩

/-- The last bit of a stream of two bytes, and a field that ends there. -/
theorem witness_FieldIsSliceOfLittleEndianInteger : 15 < 8 * 2 ∧ 13 + 3 ≤ 8 * 2 := by decide

theorem witness_FieldIsSliceOfBigEndianInteger : 15 < 8 * 2 ∧ 13 + 3 ≤ 8 * 2 := by decide

theorem witness_DatapathComputesPack : (Memory.ofBytes [1#8, 0#8, 2#8]).wf = true ∧ 7 < 2 ^ 3 ∧ 0 < 2 ^ 0 := by decide

/-- The widest field, at phase 7, ending in the stream's last byte; and `MAX_W` = 32. -/
theorem witness_DatapathStaysInItsWindow :
    Config.bfc64.maxW = 32 ∧ 32 ≤ Config.bfc64.maxW ∧ 0 < 32 ∧ 7 + 32 ≤ 8 * 5 := by decide

theorem witness_SelectorAloneChoosesTheCommand :
    0xFC#8 &&& 0x03#8 = 0x00#8 ∧ 0x5D#8 &&& 0x03#8 = 0x01#8 ∧ 0x46#8 &&& 0x03#8 = 0x02#8 ∧
      0x87#8 &&& 0x03#8 = 0x03#8 := by decide

/-- Every operand at the largest value its encoding admits, in both bit orders. -/
theorem witness_DecodeInvertsEncode :
    Config.bfc64.legal ∧ msbParams.legal ∧ (Instr.pack 63 1023 4294967295).wf Config.bfc64 = true ∧
    (Instr.unpack 63 1023).wf Config.bfc64 = true ∧ (Instr.load 131071 8388607).wf Config.bfc64 = true ∧
    (Instr.write 8388607 8388607).wf Config.bfc64 = true ∧ (Instr.min 8388607 8388607 8388607).wf msbParams = true ∧
    (Instr.read 1023 8388607 8388607).wf msbParams = true := by decide

theorem witness_RecordFieldsAreSlices :
    Config.bfc64.bitOrder = .lsbFirst ∧ Config.bfc64.legal ∧
    (6 ≤ 6 ∧ slice (leInt (Memory.ofBytes scenarioA) 6) 0 3 = 2) ∧
    (7 ≤ 7 ∧ slice (leInt (Memory.ofBytes [3#8]) 7) 0 3 = 3) ∧
    (Config.bfc64.minRecordBytes ≤ 10 ∧ slice (leInt (Memory.ofBytes [6#8]) Config.bfc64.minRecordBytes) 0 3 = 6) ∧
    (8 ≤ 8 ∧ slice (leInt (Memory.ofBytes [7#8]) 8) 0 3 = 7) := by decide

/-- A LOAD with its padding clear and the same LOAD with its padding set. -/
theorem witness_PaddingBitsAreNotRead :
    Kind.ofTag (tagAt Config.bfc64 (Memory.ofBytes [2#8]) 0) = some .load ∧
    ∀ k, k < (layout Config.bfc64 .load).usedBits →
      streamBit Config.bfc64.bitOrder (Memory.ofBytes [2#8]) (8 * 0 + k) =
        streamBit Config.bfc64.bitOrder (Memory.ofBytes [2#8, 0#8, 0#8, 0#8, 0#8, 0xF8#8]) (8 * 0 + k) := by
  refine ⟨by decide, fun k hk => ?_⟩
  have hk : k < 43 := hk
  interval_cases k <;> decide

theorem witness_EncodeRecordBuildsTheFormat :
    Config.bfc64.legal ∧ opsInRange (layout Config.bfc64 .load) [131071, 8388607] ∧
    opsInRange (layout Config.bfc64 .write) [8388607, 8388607] ∧
    opsInRange (layout Config.bfc64 .min) [8388607, 8388607, 8388607] ∧
    opsInRange (layout Config.bfc64 .read) [1023, 8388607, 8388607] :=
  ⟨by decide, ⟨rfl, by decide⟩, ⟨rfl, by decide⟩, ⟨rfl, by decide⟩, ⟨rfl, by decide⟩⟩

theorem witness_RecordsAreTheirCommandSequences :
    Config.bfc64.legal ∧ 8388607 < 2 ^ 23 ∧ 131071 < 2 ^ 17 ∧ 1023 < 2 ^ 10 ∧
    (tagAt Config.bfc64 (Memory.ofBytes [2#8]) 0 = 2 ∧ 0 + 6 ≤ 6) ∧
    (tagAt Config.bfc64 (Memory.ofBytes [3#8]) 0 = 3 ∧ 0 + 7 ≤ 7) ∧
    (tagAt Config.bfc64 (Memory.ofBytes [6#8]) 0 = 6 ∧ 0 + Config.bfc64.minRecordBytes ≤ 10) ∧
    (tagAt Config.bfc64 (Memory.ofBytes [7#8]) 0 = 7 ∧ 0 + 8 ≤ 8) := by decide

theorem witness_RecordInstructionEncodes :
    (Instr.read 1023 8388607 8388607).recordOps = some (.read, [1023, 8388607, 8388607]) ∧
    (encoding .load []).params.legal ∧ (Instr.read 1023 8388607 8388607).wf (encoding .load []).params = true ∧
    ({ State.reset with procedure := .encoding } : State).procedure = .encoding := by decide

/-- One operand too few, and one too many. -/
theorem witness_WrongOperandCountIsReported :
    ((encoding .write [1]).halt = none ∧ (encoding .write [1]).agenda = [.encode .write [1]] ∧ [1].length ≠ 2) ∧
    ((encoding .read [1, 2, 3, 4]).halt = none ∧ (encoding .read [1, 2, 3, 4]).agenda = [.encode .read [1, 2, 3, 4]] ∧
      [1, 2, 3, 4].length ≠ 3) := by decide

/-- The last operand of a READ, at `2^width`, after two that fit. -/
theorem witness_FirstOperandOutOfRangeIsReported :
    (encoding .read [1023, 1, 8388608]).params.legal ∧ (encoding .read [1023, 1, 8388608]).halt = none ∧
    (encoding .read [1023, 1, 8388608]).agenda = [.encode .read [1023, 1, 8388608]] ∧
    [1023, 1, 8388608].length = (layout Config.bfc64 .read).widths.length ∧ 2 < [1023, 1, 8388608].length ∧
    (∀ j, j < 2 → [1023, 1, 8388608].getD j 0 < 2 ^ (layout Config.bfc64 .read).width j) ∧
    2 ^ (layout Config.bfc64 .read).width 2 ≤ [1023, 1, 8388608].getD 2 0 := by decide

/-- A WRITE with one operand, and a LOAD whose second operand is `2^23`. -/
theorem witness_EncodeRecordReportsErrors :
    Config.bfc64.legal ∧ [1].length ≠ 2 ∧
    ([131071, 8388608].length = 2 ∧ 1 < 2 ∧ 23 = (layout Config.bfc64 .load).width 1 ∧
      (∀ j, j < 1 → [131071, 8388608].getD j 0 < 2 ^ (layout Config.bfc64 .load).width j) ∧
      2 ^ 23 ≤ [131071, 8388608].getD 1 0) := by decide

theorem witness_RecordRoundTrip :
    Config.bfc64.legal ∧ encodeRecord Config.bfc64 .load [20, 869] = .ok scenarioA :=
  ⟨by decide, by decide +kernel⟩

/-- A program that encodes, and one that does not. -/
theorem witness_MachineEncodesPrograms :
    ((encoding .load [20, 869]).halt = none ∧
      (encoding .load [20, 869]).agenda = [(Kind.load, [20, 869])].map (fun l => .encode l.1 l.2) ++ []) ∧
    encodeProgram Config.bfc64 [(.load, [20, 869])] = .ok scenarioA ∧
    encodeProgram Config.bfc64 [(.write, [1])] = .error (.operandCountMismatch .write 1 2) :=
  ⟨by decide, by decide +kernel, by decide⟩

theorem witness_RecordInstructionIsTakenOver :
    (Instr.min 1 2 3).recordOps = some (.min, [1, 2, 3]) ∧ (withBytes scenarioA).procedure = .decoding := by decide

/-- Each unused tag, in a stream of one byte and in one long enough for any record. -/
theorem witness_UnknownTagEndsTheWalk :
    (walking [4#8]).halt = none ∧ (walking [4#8]).agenda = [.walk] ∧ (walking [4#8]).p < (walking [4#8]).len ∧
    unpackBits .lsbFirst (walking [0#8]).mem 0 3 = 0 ∧ unpackBits .lsbFirst (walking [1#8]).mem 0 3 = 1 ∧
    unpackBits .lsbFirst (walking [4#8]).mem 0 3 = 4 ∧ unpackBits .lsbFirst (walking [0x0D#8]).mem 0 3 = 5 := by decide

/-- The unused tag 4 in a stream of one byte, and a READ one byte short. -/
theorem witness_DecodeRecordReportsErrors :
    (0 < 1 ∧ unpackBits .lsbFirst (Memory.ofBytes [4#8]) (8 * 0) 3 = 4) ∧
    (0 < 7 ∧ unpackBits .lsbFirst (Memory.ofBytes [7#8]) (8 * 0) 3 = 7 ∧ 7 < 0 + 8) := by decide

/-- Each record one byte short. -/
theorem witness_TruncatedRecordEndsTheWalk :
    (walking [2#8]).halt = none ∧ (walking [2#8]).agenda = [.walk] ∧ (walking [2#8]).p < (walking [2#8]).len ∧
    (unpackBits .lsbFirst (Memory.ofBytes [2#8]) 0 3 = 2 ∧ 5 < 0 + 6) ∧
    (unpackBits .lsbFirst (Memory.ofBytes [3#8]) 0 3 = 3 ∧ 6 < 0 + 7) ∧
    (unpackBits .lsbFirst (Memory.ofBytes [6#8]) 0 3 = 6 ∧ 9 < 0 + Config.bfc64.minRecordBytes) ∧
    (unpackBits .lsbFirst (Memory.ofBytes [7#8]) 0 3 = 7 ∧ 7 < 0 + 8) := by decide

/-- At the end of an empty stream; the step that makes the walk Done is the one at the end. -/
theorem witness_WalkIsDoneExactlyAtTheEnd :
    (walking []).halt = none ∧ (walking []).agenda = [.walk] ∧ (walking []).p = (walking []).len ∧
    (walking []).walk ≠ .done ∧ ∃ t, step (walking []) = .next t ∧ t.walk = .done :=
  ⟨rfl, rfl, rfl, by decide, _, rfl, rfl⟩

/-- Scenario A's record after one byte, and alone. -/
theorem witness_RecordDecodesAsItsOwnStream :
    Config.bfc64.legal ∧ decodeRecord Config.bfc64 (Memory.ofBytes (9#8 :: scenarioA)) 1 7 = .ok (.load 20 869) ∧
    (Instr.load 20 869).recordOps = some (.load, [20, 869]) ∧
    ∀ j, j < (layout Config.bfc64 .load).len →
      (Memory.ofBytes scenarioA).read j = (Memory.ofBytes (9#8 :: scenarioA)).read (1 + j) := by decide

/-- A safe host about to walk a program of one record. -/
theorem witness_WalkTerminates :
    Inv (walking scenarioA) ∧ (walking scenarioA).halt = none ∧ (walking scenarioA).agenda = .walk :: [] :=
  ⟨⟨by decide, by decide, by decide, by decide, by decide, by decide, rfl, fun r h => nomatch h⟩, rfl, rfl⟩

theorem witness_EncodedProgramWalksBack :
    Config.bfc64.legal ∧ encodeProgram Config.bfc64 [(.load, [20, 869])] = .ok scenarioA ∧
    ({ State.reset with agenda := [.startEncode, .encode .load [20, 869], .presentEncoded, .startWalk, .walk] } :
      State).agenda =
      .startEncode :: ([(Kind.load, [20, 869])].map (fun l => .encode l.1 l.2) ++
        .presentEncoded :: .startWalk :: .walk :: []) :=
  ⟨by decide, by decide +kernel, rfl⟩

theorem witness_StepRunsThePresentedCommand :
    ({ State.reset with agenda := [.command ⟨0x0D#8, 0, 5⟩] } : State).halt = none ∧
    ({ State.reset with agenda := [.command ⟨0x0D#8, 0, 5⟩] } : State).agenda = .command ⟨0x0D#8, 0, 5⟩ :: [] := by decide

/-- A walk at a record, and an encode of one. -/
theorem witness_StepRunsTheRecord :
    ((walking scenarioA).halt = none ∧ (walking scenarioA).agenda = .walk :: [] ∧
      (walking scenarioA).p < (walking scenarioA).len ∧
      decodeRecord (walking scenarioA).params (walking scenarioA).mem 0 (walking scenarioA).len = .ok (.load 20 869)) ∧
    ((encoding .load [20, 869]).halt = none ∧ (encoding .load [20, 869]).agenda = .encode .load [20, 869] :: [] ∧
      (Instr.load 20 869).recordOps = some (.load, [20, 869])) := by decide

/-- A PACK, then a reserved selector. -/
theorem witness_MachineRunsHostSequences :
    ({ withBytes [0#8, 0#8] with agenda := [.command ⟨0x0D#8, 0, 5⟩, .command ⟨0x03#8, 0, 0⟩] } : State).halt = none ∧
    ({ withBytes [0#8, 0#8] with agenda := [.command ⟨0x0D#8, 0, 5⟩, .command ⟨0x03#8, 0, 0⟩] } : State).agenda =
      [⟨0x0D#8, 0, 5⟩, ⟨0x03#8, 0, 0⟩].map .command := by decide

/-- A host with nothing to do, and one that was stopped. -/
theorem witness_EndedRunStays :
    State.reset.ended ∧
      ({ walking scenarioA with halt := some (.stopped 0 .bounds) } : State).ended :=
  ⟨.inr rfl, .inl (by decide)⟩

/-- A walk past a record, a walk that starts again, and a stream presented. -/
theorem witness_OnlyTheWalkOrPresentingMovesThePointer :
    (∃ t, step (walking scenarioA) = .next t ∧ t.p ≠ (walking scenarioA).p) ∧
    (∃ t, step { withBytes scenarioA with p := 6, agenda := [.startWalk] } = .next t ∧ t.p ≠ 6) ∧
    (∃ t, step { withBytes scenarioA with p := 6, agenda := [.present [7#8] 1] } = .next t ∧ t.p ≠ 6) :=
  ⟨⟨_, rfl, by decide⟩, ⟨_, rfl, by decide⟩, ⟨_, rfl, by decide⟩⟩

/-- A PACK, and a stream presented. -/
theorem witness_OnlyPackOrPresentingChangesTheStream :
    (∃ t, step { withBytes [0#8] with agenda := [.command ⟨0x0D#8, 0, 5⟩] } = .next t ∧ t.mem ≠ (withBytes [0#8]).mem) ∧
    (∃ t, step { State.reset with agenda := [.present [7#8] 1] } = .next t ∧ t.len ≠ State.reset.len) :=
  ⟨⟨_, rfl, by decide⟩, ⟨_, rfl, by decide⟩⟩

theorem witness_ParametersAreFixed : ∃ t, core.run 1 (walking scenarioA) = .next t := ⟨_, rfl⟩

theorem witness_StepKeepsTheInvariant :
    Inv (walking scenarioA) ∧ ∃ t, step (walking scenarioA) = .next t :=
  ⟨witness_WalkTerminates.1, _, rfl⟩

theorem witness_WalkStartsAtZero :
    ({ withBytes scenarioA with p := 6, agenda := [.startWalk] } : State).halt = none ∧
    ({ withBytes scenarioA with p := 6, agenda := [.startWalk] } : State).agenda = .startWalk :: [] := by decide

theorem witness_SafeRunsNeverStop : Inv (walking scenarioA) := witness_WalkTerminates.1

end Sys2Proof.Tests
end

section
/-! The state after reset (10_state.md R31). -/

namespace Sys2Proof

/-- What 00_scope.md R3 asks of this hardware's OPEN parameters; the other constraints hold of its fixed ones. -/
theorem Config.bfc_legal {streamCap offW lenW : Nat} (hcap : 10 ≤ streamCap) (hoff : 8 * streamCap < 2 ^ offW)
    (hlen : streamCap < 2 ^ lenW) : (Config.bfc streamCap offW lenW).legal :=
  ⟨show 23 ≤ 32 by decide, hcap, hoff, hlen, show 9 ≤ 10 by decide, hcap⟩

/-- The design choice of log 2 is one R3 allows. -/
theorem Config.bfc64_legal : Config.bfc64.legal :=
  Config.bfc_legal (by decide) (by decide) (by decide)

namespace Machine

/-- Nothing is presented, unpacked or decoded yet, so only the parameters have something to meet. -/
theorem inv_reset : Inv State.reset where
  params := Config.bfc64_legal
  mem := rfl
  pointer := le_rfl
  flags := rfl
  value := Nat.two_pow_pos _
  vals := List.forall_mem_nil _
  records := rfl
  operands := List.forall_mem_nil _

/-- Settles O54: every field of the invariant holds of the values reset gives, and R31's `p` is 0. -/
theorem resetIsSafe : Obligations.ResetIsSafe :=
  ⟨inv_reset, rfl⟩

end Machine
end Sys2Proof
end

section
/-! What changes the bytes of a stream: a completed PACK, in its own field, and the host presenting another stream
(20_memory.md R43, R45, R50). -/

namespace Sys2Proof

/-- Every bit of a field stands in one of the bytes the alignment stage counts (20_memory.md R43, 41_codec_ops.md R78). -/
theorem byte_of_field_bit_mem_touched {o w k : Nat} (hlo : o ≤ k) (hhi : k < o + w) :
    Datapath.firstByte o ≤ k / 8 ∧ k / 8 < Datapath.firstByte o + Datapath.bytesTouched o w := by
  have hw : w ≠ 0 := by omega
  simp only [Datapath.firstByte, Datapath.bytesTouched, Datapath.phase, if_neg hw, Nat.shiftRight_eq_div_pow]
  omega

theorem read_packBits_of_untouched (order : BitOrder) (S : Memory) {o w a : Nat} (v : Nat)
    (h : a < Datapath.firstByte o ∨ Datapath.firstByte o + Datapath.bytesTouched o w ≤ a) :
    (packBits order S o w v).read a = S.read a :=
  read_packBits_outside order S v fun k hlo hhi => by
    obtain ⟨hfirst, hlast⟩ := byte_of_field_bit_mem_touched hlo hhi
    omega

/-- A field inside the stream leaves the bytes of the port beyond the stream (20_memory.md R50). -/
theorem read_packBits_beyond (order : BitOrder) (S : Memory) {o w a L : Nat} (v : Nat) (hf : o + w ≤ 8 * L)
    (ha : L ≤ a) : (packBits order S o w v).read a = S.read a :=
  read_packBits_outside order S v fun k _ hhi => by omega

namespace Machine

/-! ## Commands and records -/

@[simp] theorem State.runCommand_params (s : State) (op w o v : Nat) : (s.runCommand op w o v).params = s.params := by
  unfold State.runCommand
  simp only
  split_ifs <;> simp

@[simp] theorem State.runCommand_len (s : State) (op w o v : Nat) : (s.runCommand op w o v).len = s.len := by
  unfold State.runCommand
  simp only
  split_ifs <;> simp

/-- A command keeps the stream, or it is a PACK that completes in a field inside the stream. -/
theorem State.runCommand_mem_cases (s : State) {op : Nat} (hop : op < 4) (w o v : Nat) :
    (s.runCommand op w o v).mem = s.mem ∨
      (op = 1 ∧ o + w ≤ 8 * s.len ∧
        (s.runCommand op w o v).mem = packBits s.params.bitOrder s.mem o w v) := by
  rcases s.runCommand_cases hop w o v with
    ⟨-, h⟩ | ⟨-, h⟩ | ⟨hpack, -, -, hf, -, h⟩ | ⟨-, -, -, -, h⟩ <;> rw [h]
  · exact .inl rfl
  · exact .inl rfl
  · exact .inr ⟨hpack, hf, rfl⟩
  · exact .inl rfl

/-- A record, encoded or taken over, keeps the stream, its length and the parameters. -/
theorem State.runRecord_frame (s : State) (m : Kind) (ops : List Nat) :
    (s.runRecord m ops).mem = s.mem ∧ (s.runRecord m ops).len = s.len ∧ (s.runRecord m ops).params = s.params := by
  cases h : s.procedure with
  | encoding =>
    obtain ⟨hparams, hmem, hlen, -⟩ := s.encode_frame m ops
    rw [State.runRecord_encoding h]
    exact ⟨hmem, hlen, hparams⟩
  | decoding =>
    rw [State.runRecord_decoding h]
    exact ⟨rfl, rfl, rfl⟩

/-- An instruction runs one command, the selector of PACK for a PACK alone, or one record. -/
theorem exec_eq_runCommand_or_runRecord (i : Instr) (s : State) :
    (∃ op w o v, op < 4 ∧ (op = 1 → i = .pack w o v) ∧ exec i s = .next (s.runCommand op w o v)) ∨
      ∃ m ops, exec i s = .next (s.runRecord m ops) := by
  cases i with
  | nop => exact .inl ⟨0, 0, 0, 0, by omega, by omega, rfl⟩
  | pack w o v => exact .inl ⟨1, w, o, v, by omega, fun _ => rfl, rfl⟩
  | unpack w o => exact .inl ⟨2, w, o, 0, by omega, by omega, rfl⟩
  | reservedOp3 => exact .inl ⟨3, 0, 0, 0, by omega, by omega, rfl⟩
  | load b c => exact .inr ⟨_, _, exec_record rfl s⟩
  | write b c => exact .inr ⟨_, _, exec_record rfl s⟩
  | min b c d => exact .inr ⟨_, _, exec_record rfl s⟩
  | read b c d => exact .inr ⟨_, _, exec_record rfl s⟩

/-- Settles O10: a PACK that raises keeps the stream, and one that completes writes its field's bits alone. -/
theorem packKeepsUntouchedBytes : Obligations.PackKeepsUntouchedBytes := by
  intro s t w o v h a ha
  obtain rfl : s.runCommand 1 w o v = t := Host.Outcome.next.inj h
  rcases s.runCommand_mem_cases (op := 1) (by omega) w o v with hmem | ⟨-, -, hmem⟩
  · rw [hmem]
  · rw [hmem, read_packBits_of_untouched _ _ v ha]

/-- Settles O17: only the selector of PACK can write the stream, and its field lies inside the stream. -/
theorem onlyPackWritesTheStream : Obligations.OnlyPackWritesTheStream := by
  intro i s
  rcases exec_eq_runCommand_or_runRecord i s with ⟨op, w, o, v, hop, hpack, h⟩ | ⟨m, ops, h⟩
  · refine ⟨_, h, by simp, by simp, ?_⟩
    rcases s.runCommand_mem_cases hop w o v with hmem | ⟨hop1, hf, hmem⟩
    · exact ⟨fun _ => hmem, fun a _ => by rw [hmem]⟩
    · refine ⟨fun hne => absurd (hpack hop1) (hne w o v), fun a ha => ?_⟩
      rw [hmem, read_packBits_beyond _ _ v hf ha]
  · obtain ⟨hmem, hlen, hparams⟩ := s.runRecord_frame m ops
    exact ⟨_, h, hlen, hparams, fun _ => hmem, fun a _ => by rw [hmem]⟩

/-! ## Steps and runs -/

/-- A step keeps the stream and its length, or it presents a stream, or it runs a PACK, which keeps the length. -/
theorem step_stream_cases {s t : State} (h : step s = .next t) :
    (t.mem = s.mem ∧ t.len = s.len) ∨
      ∃ a rest, s.agenda = a :: rest ∧
        ((∃ bytes n, a = .present bytes n) ∨ a = .presentEncoded ∨
          ∃ b, a = .command b ∧ b.op = 1 ∧ t.len = s.len) := by
  cases step_cases h with
  | ended _ ht => exact .inl (by simp [ht])
  | present bytes n rest _ ha _ => exact .inr ⟨_, rest, ha, .inl ⟨bytes, n, rfl⟩⟩
  | command b rest _ ha ht =>
    have hlen : t.len = s.len := by simp [ht]
    rcases (s.withAgenda rest).runCommand_mem_cases (bundle_op_lt b) b.w b.o b.v with hmem | ⟨hop, -, -⟩
    · exact .inl ⟨by simpa [ht] using hmem, hlen⟩
    · exact .inr ⟨_, rest, ha, .inr (.inr ⟨b, rfl, hop, hlen⟩)⟩
  | startEncode rest _ _ ht => exact .inl (by simp [ht])
  | encode m ops rest q _ _ ht =>
    obtain ⟨-, hmem, hlen, -⟩ := State.encode_frame ((s.withAgenda rest).withProcedure q) m ops
    exact .inl ⟨ht ▸ hmem, ht ▸ hlen⟩
  | presentEncoded rest _ ha _ => exact .inr ⟨_, rest, ha, .inr (.inl rfl)⟩
  | startWalk rest _ _ ht => exact .inl (by simp [ht])
  | walkDone a rest again _ _ _ _ ht => exact .inl (by simp [ht])
  | walkError a rest again e _ _ _ _ _ ht => exact .inl (by simp [ht])
  | walkTake a rest again i m ops _ _ _ _ _ _ ht => exact .inl (by simp [ht])

theorem step_params {s t : State} (h : step s = .next t) : t.params = s.params := by
  cases step_cases h with
  | ended _ ht => rw [ht]
  | present bytes n rest _ _ ht => simp [ht]
  | command b rest _ _ ht => simp [ht]
  | startEncode rest _ _ ht => simp [ht]
  | encode m ops rest q _ _ ht => exact ht ▸ (State.encode_frame _ m ops).1
  | presentEncoded rest _ _ ht => simp [ht]
  | startWalk rest _ _ ht => simp [ht]
  | walkDone a rest again _ _ _ _ ht => simp [ht]
  | walkError a rest again e _ _ _ _ _ ht => simp [ht]
  | walkTake a rest again i m ops _ _ _ _ _ _ ht => simp [ht]

/-- Settles O51: the first case of `step_stream_cases` changes nothing. -/
theorem onlyPackOrPresentingChangesTheStream : Obligations.OnlyPackOrPresentingChangesTheStream := by
  intro s t h hne
  rcases step_stream_cases h with ⟨hmem, hlen⟩ | hchange
  · exact absurd hne (by simp [hmem, hlen])
  · exact hchange

/-- Settles O52: every step keeps the parameters, so every run does. -/
theorem parametersAreFixed : Obligations.ParametersAreFixed := by
  intro s t n h
  exact run_induction (Q := fun u => u.params = s.params) (fun _ _ hu hstep => (step_params hstep).trans hu) rfl h

end Machine
end Sys2Proof
end

section
/-! The integer views of a stream (20_memory.md R37, R38). -/

namespace Sys2Proof

@[simp] theorem testBit_slice (v lo bits i : Nat) :
    (slice v lo bits).testBit i = (decide (i < bits) && v.testBit (lo + i)) := by
  simp [slice]

theorem leInt_eq_sum (S : Memory) (L : Nat) :
    leInt S L = ∑ i ∈ Finset.range L, (S.read i).toNat * 2 ^ (8 * i) := by
  induction L with
  | zero => rfl
  | succ n ih => rw [leInt, ih, Finset.sum_range_succ]

/-- One more byte is one more step of Horner's rule: it moves every earlier byte up by its 8 bits. -/
theorem beInt_eq_sum (S : Memory) (L : Nat) :
    beInt S L = ∑ i ∈ Finset.range L, (S.read i).toNat * 2 ^ (8 * (L - 1 - i)) := by
  induction L with
  | zero => rfl
  | succ n ih =>
    have hshift : ∀ i ∈ Finset.range n,
        (S.read i).toNat * 2 ^ (8 * (n - 1 - i)) * 2 ^ 8 = (S.read i).toNat * 2 ^ (8 * (n + 1 - 1 - i)) := by
      intro i hi
      have hin : i < n := Finset.mem_range.1 hi
      rw [Nat.mul_assoc, ← Nat.pow_add, show 8 * (n - 1 - i) + 8 = 8 * (n + 1 - 1 - i) by omega]
    rw [beInt, ih, Finset.sum_range_succ, Finset.sum_mul, Finset.sum_congr rfl hshift]
    simp

theorem unpackBits_eq_slice_leInt (S : Memory) {o w L : Nat} (h : o + w ≤ 8 * L) :
    unpackBits .lsbFirst S o w = slice (leInt S L) o w := by
  apply Nat.eq_of_testBit_eq
  intro i
  rw [testBit_unpackBits, testBit_slice, testBit_leInt]
  by_cases hi : i < w
  · simp [hi, valueIndex, show o + i < 8 * L by omega]
  · simp [hi]

/-- Bit `i` of the value is stream bit `o + (w - 1 - i)`, which is bit `8L - o - w + i` of the number. -/
theorem unpackBits_eq_slice_beInt (S : Memory) {o w L : Nat} (h : o + w ≤ 8 * L) :
    unpackBits .msbFirst S o w = slice (beInt S L) (8 * L - o - w) w := by
  apply Nat.eq_of_testBit_eq
  intro i
  rw [testBit_unpackBits, testBit_slice, testBit_beInt]
  by_cases hi : i < w
  · have hbit : 8 * L - 1 - (8 * L - o - w + i) = o + (w - 1 - i) := by omega
    simp [hi, valueIndex, hbit, show 8 * L - o - w + i < 8 * L by omega]
  · simp [hi]

/-- Settles O18: R37's sum, its bits and its slices. -/
theorem fieldIsSliceOfLittleEndianInteger : Obligations.FieldIsSliceOfLittleEndianInteger := by
  intro S L
  refine ⟨leInt_eq_sum S L, fun k hk => ?_, fun o w h => unpackBits_eq_slice_leInt S h⟩
  simp [testBit_leInt, hk]

/-- Settles O19: R38's sum, its bits, read from the other end, and its slices. -/
theorem fieldIsSliceOfBigEndianInteger : Obligations.FieldIsSliceOfBigEndianInteger := by
  intro S L
  refine ⟨beInt_eq_sum S L, fun k hk => ?_, fun o w h => unpackBits_eq_slice_beInt S h⟩
  have hback : 8 * L - 1 - (8 * L - 1 - k) = k := by omega
  simp [testBit_beInt, hback, show 8 * L - 1 - k < 8 * L by omega]

end Sys2Proof
end

section
/-! The encodings: what a command header selects and a record format's operands are, and that the decoder undoes the
encoder (30_encoding.md). -/

namespace Sys2Proof

/-! ## Command headers -/

/-- The table's mask 0x03 takes the selector out of a header (30_encoding.md R52). -/
theorem toNat_and_selectorMask (h : BitVec 8) : (h &&& 0x03#8).toNat = h.toNat % 4 := by
  rw [BitVec.toNat_and]
  exact Nat.and_two_pow_sub_one_eq_mod h.toNat 2

theorem op_eq_toNat_of_match {h c : BitVec 8} {o v : Nat} (hm : h &&& 0x03#8 = c) :
    Bundle.op ⟨h, o, v⟩ = c.toNat := by
  rw [← hm, toNat_and_selectorMask, Bundle.op]

theorem bundle_w_eq_shift (h : BitVec 8) (o v : Nat) : Bundle.w ⟨h, o, v⟩ = (h >>> 2).toNat := by
  rw [BitVec.toNat_ushiftRight, Nat.shiftRight_eq_div_pow, Bundle.w]

theorem op_header (w o v : Nat) {op : Nat} (hop : op < 4) : Bundle.op ⟨header w op, o, v⟩ = op :=
  Laws.TableMatch.maskedBits_header w o v hop

/-- A width that fits its port is read back from the header (30_encoding.md R51, R54). -/
theorem w_header {w op : Nat} (o v : Nat) (hw : w < 64) (hop : op < 4) : Bundle.w ⟨header w op, o, v⟩ = w := by
  simp only [Bundle.w, header, BitVec.toNat_ofNat]
  omega

/-- Settles O23: the masked header is the selector, whatever the offset and the value are. -/
theorem selectorAloneChoosesTheCommand : Obligations.SelectorAloneChoosesTheCommand := by
  intro h o v
  rw [← bundle_w_eq_shift h o v]
  exact ⟨fun hm => decodeCommand_of_nop (op_eq_toNat_of_match hm),
    fun hm => decodeCommand_of_pack (op_eq_toNat_of_match hm),
    fun hm => decodeCommand_of_unpack (op_eq_toNat_of_match hm),
    fun hm => decodeCommand_of_reserved (op_eq_toNat_of_match hm)⟩

/-! ## Record formats -/

/-- Each operand starts where the one before it ends; past the last one the width is 0. -/
theorem Layout.offset_succ (l : Layout) (k : Nat) : l.offset (k + 1) = l.offset k + l.width k := by
  rw [Layout.offset, Layout.offset, Layout.width, List.take_add_one, List.sum_append, List.getD_eq_getElem?_getD]
  cases l.widths[k]? <;> simp [Nat.add_assoc]

theorem Layout.offset_eq_sum_width (l : Layout) (k : Nat) : l.offset k = 3 + ∑ j ∈ Finset.range k, l.width j := by
  induction k with
  | zero => rfl
  | succ k ih => rw [l.offset_succ, ih, Finset.sum_range_succ, Nat.add_assoc]

theorem Layout.offset_le_usedBits (l : Layout) (k : Nat) : l.offset k ≤ l.usedBits := by
  have hsum := l.widths.sum_take_add_sum_drop k
  rw [Layout.offset, Layout.usedBits]
  omega

/-- Settles O26: R66's rule for every format, and its numbers. -/
theorem fieldOffsetsOfTheFormats : Obligations.FieldOffsetsOfTheFormats := fun P =>
  ⟨fun m k => (layout P m).offset_eq_sum_width k, rfl, rfl, rfl, rfl, rfl, rfl, rfl, rfl, rfl, rfl, rfl, rfl, rfl, rfl⟩

/-- Under LSB_FIRST every field of a record at byte 0 is a slice of the record's little-endian number (R70). -/
theorem fieldAt_zero_eq_slice {P : Params} (hb : P.bitOrder = .lsbFirst) (hP : P.legal) (S : Memory) (m : Kind)
    (k : Nat) :
    fieldAt P S 0 m k = slice (leInt S (layout P m).len) ((layout P m).offset k) ((layout P m).width k) := by
  have hend := (layout P m).offset_succ k ▸ (layout P m).offset_le_usedBits (k + 1)
  rw [fieldAt, hb, Nat.mul_zero, Nat.zero_add, unpackBits_eq_slice_leInt S (hend.trans (usedBits_le hP m))]

theorem tagAt_zero_eq_slice {P : Params} (hb : P.bitOrder = .lsbFirst) (S : Memory) {n : Nat} (hn : 1 ≤ n) :
    tagAt P S 0 = slice (leInt S n) 0 3 := by
  rw [tagAt, hb, unpackBits_eq_slice_leInt S (L := n) (by omega)]

/-- A record with the tag of `m` in its lowest bits decodes to the slices of its number that the format of `m` gives. -/
theorem decodeRecord_zero_eq_slices {P : Params} (hb : P.bitOrder = .lsbFirst) (hP : P.legal) (S : Memory) {L : Nat}
    (m : Kind) (hL : (layout P m).len ≤ L) (ht : slice (leInt S (layout P m).len) 0 3 = (layout P m).tag) :
    decodeRecord P S 0 L = .ok (recordInstr m fun k =>
      slice (leInt S (layout P m).len) ((layout P m).offset k) ((layout P m).width k)) := by
  have hlen := six_le_len hP m
  have htag : Kind.ofTag (tagAt P S 0) = some m := by
    rw [tagAt_zero_eq_slice hb S (by omega : 1 ≤ (layout P m).len), ht, ofTag_tag]
  rw [decodeRecord_of_tag htag (by omega), funext (fieldAt_zero_eq_slice hb hP S m)]

/-- Settles O27: `decodeRecord_zero_eq_slices` for each of the four formats. -/
theorem recordFieldsAreSlices : Obligations.RecordFieldsAreSlices := fun _ S _ hb hP =>
  ⟨decodeRecord_zero_eq_slices hb hP S .load, decodeRecord_zero_eq_slices hb hP S .write,
    decodeRecord_zero_eq_slices hb hP S .min, decodeRecord_zero_eq_slices hb hP S .read⟩

/-! ## Decoding what was encoded -/

theorem encode_record {i : Instr} {m : Kind} {ops : List Nat} (P : Params) (hi : i.recordOps = some (m, ops)) :
    encode P i = .record (recordBytes P m ops) := by
  cases i <;> simp only [Instr.recordOps, Option.some.injEq, Prod.mk.injEq, reduceCtorEq] at hi <;>
    obtain ⟨rfl, rfl⟩ := hi <;> rfl

/-- A record whose operands fit their fields is read back from its own bytes, in both bit orders. -/
theorem decode_encode_record {P : Params} (hP : P.legal) {i : Instr} {m : Kind} {ops : List Nat}
    (hi : i.recordOps = some (m, ops)) (hwf : i.wf P = true) : decode P (encode P i) = .ok i := by
  rw [encode_record P hi]
  exact decodeRecord_of_recordBytes hP ((wf_iff_opsInRange P hi).1 hwf) hi _ 0 _ (by simp) (by simp)

theorem decode_command (P : Params) (b : Bundle) : decode P (.command b) = .ok (decodeCommand b) := rfl

/-- Settles O25: a command's selector and width are read back from its header, a record's operands from its bytes. -/
theorem decodeInvertsEncode : Obligations.DecodeInvertsEncode := by
  intro P i hP hwf
  cases i with
  | nop => rw [encode, decode_command, decodeCommand_of_nop (op_header 0 0 0 (by omega))]
  | pack w o v =>
    obtain ⟨hw, -, -⟩ := wf_pack.1 hwf
    rw [encode, decode_command, decodeCommand_of_pack (op_header w o v (by omega)), w_header o v hw (by omega)]
    rfl
  | unpack w o =>
    obtain ⟨hw, -⟩ := wf_unpack.1 hwf
    rw [encode, decode_command, decodeCommand_of_unpack (op_header w o 0 (by omega)), w_header o 0 hw (by omega)]
    rfl
  | reservedOp3 => rw [encode, decode_command, decodeCommand_of_reserved (op_header 0 0 0 (by omega))]
  | load b c => exact decode_encode_record hP rfl hwf
  | write b c => exact decode_encode_record hP rfl hwf
  | min b c d => exact decode_encode_record hP rfl hwf
  | read b c d => exact decode_encode_record hP rfl hwf

/-- Settles O24: eight closed words, each run through the decoder. -/
theorem wordsOfTheSpecDecode : Obligations.WordsOfTheSpecDecode := by
  refine ⟨?_, ?_, ?_, ?_, ?_, ?_, ?_, ?_⟩ <;> decide

end Sys2Proof
end

section
/-! What a single command does to its field and to the outputs (41_codec_ops.md R74 to R77, R81, R84 to R89). -/

namespace Sys2Proof

/-! ## PACK as an operation on streams -/

theorem streamBit_packBits_field (order : BitOrder) (S : Memory) (o v : Nat) {w j : Nat} (hj : j < w) :
    streamBit order (packBits order S o w v) (o + j) = v.testBit (valueIndex order w j) := by
  rw [streamBit_packBits, if_pos (by omega), Nat.add_sub_cancel_left]

theorem streamBit_packBits_outside (order : BitOrder) (S : Memory) (v : Nat) {o w k : Nat}
    (hk : k < o ∨ o + w ≤ k) :
    streamBit order (packBits order S o w v) k = streamBit order S k := by
  rw [streamBit_packBits, if_neg (by omega)]

/-- What a field already holds is no change to it (41_codec_ops.md R86). -/
theorem packBits_unpackBits (order : BitOrder) {S : Memory} (o w : Nat) (hS : S.wf = true) :
    packBits order S o w (unpackBits order S o w) = S := by
  refine packBits_eq_of_bits (wf_packBits order o w _ hS) hS (order := order) fun k => ?_
  rw [streamBit_packBits]
  split
  next hk =>
    have hj : k - o < w := by omega
    have hback : o + (k - o) = k := by omega
    simp [testBit_unpackBits, valueIndex_lt order hj, valueIndex_valueIndex order hj, hback]
  next => rfl

/-- Of two values packed into one field the last one stays (41_codec_ops.md R87). -/
theorem packBits_packBits_same (order : BitOrder) {S : Memory} (o w v v' : Nat) (hS : S.wf = true) :
    packBits order (packBits order S o w v) o w v' = packBits order S o w v' := by
  have hS1 := wf_packBits order o w v hS
  refine packBits_eq_of_bits (wf_packBits order o w v' hS1) (wf_packBits order o w v' hS) (order := order) fun k => ?_
  simp only [streamBit_packBits]
  split <;> rfl

/-- Fields without a common bit can be packed in either order (41_codec_ops.md R88). -/
theorem packBits_comm (order : BitOrder) {S : Memory} {o w o' w' : Nat} (v v' : Nat) (hS : S.wf = true)
    (hdis : ∀ k, ¬((o ≤ k ∧ k < o + w) ∧ (o' ≤ k ∧ k < o' + w'))) :
    packBits order (packBits order S o' w' v') o w v = packBits order (packBits order S o w v) o' w' v' := by
  refine packBits_eq_of_bits (wf_packBits order _ _ _ (wf_packBits order _ _ _ hS))
    (wf_packBits order _ _ _ (wf_packBits order _ _ _ hS)) (order := order) fun k => ?_
  simp only [streamBit_packBits]
  by_cases hk : o ≤ k ∧ k < o + w
  · have hk' : ¬(o' ≤ k ∧ k < o' + w') := fun h => hdis k ⟨hk, h⟩
    rw [if_pos hk, if_neg hk', if_pos hk]
  · rw [if_neg hk, if_neg hk]

/-! ## Merging a field into a number -/

theorem testBit_ones_shiftLeft (w n i : Nat) :
    ((2 ^ w - 1) <<< n).testBit i = decide (n ≤ i ∧ i < n + w) := by
  rw [Nat.testBit_shiftLeft, Nat.testBit_two_pow_sub_one, ← Bool.decide_and]
  exact decide_eq_decide.2 (by omega)

/-- The bits of a `w`-bit value moved up by `n` lie under the mask moved up by `n`. -/
theorem testBit_shiftLeft_of_lt {v w : Nat} (n i : Nat) (hv : v < 2 ^ w) :
    (v <<< n).testBit i = if n ≤ i ∧ i < n + w then v.testBit (i - n) else false := by
  rw [Nat.testBit_shiftLeft]
  split
  next h => simp [h.1]
  next h =>
    by_cases hn : n ≤ i
    · have hw : 2 ^ w ≤ 2 ^ (i - n) := Nat.pow_le_pow_right two_pos (by omega)
      simp [Nat.testBit_lt_two_pow (hv.trans_le hw)]
    · simp [hn]

/-- A value merged into a number of `m` bits under the mask of its field: the datapath's step and R76's integer form. -/
theorem testBit_merge (x m w n v i : Nat) (hv : v < 2 ^ w) (hi : i < m) :
    ((x &&& ((2 ^ m - 1) ^^^ ((2 ^ w - 1) <<< n))) ||| v <<< n).testBit i =
      if n ≤ i ∧ i < n + w then v.testBit (i - n) else x.testBit i := by
  rw [Nat.testBit_or, Nat.testBit_and, Nat.testBit_xor, Nat.testBit_two_pow_sub_one, testBit_ones_shiftLeft,
    testBit_shiftLeft_of_lt n i hv]
  split
  next h => simp [hi, h]
  next h => simp [hi, h]

/-- PACK's effect on the little-endian number under LSB_FIRST (41_codec_ops.md R76, 20_memory.md R37). -/
theorem leInt_packBits (S : Memory) {o w v L : Nat} (hf : o + w ≤ 8 * L) (hv : v < 2 ^ w) :
    leInt (packBits .lsbFirst S o w v) L =
      (leInt S L &&& ((2 ^ (8 * L) - 1) ^^^ ((2 ^ w - 1) <<< o))) ||| (v <<< o) := by
  apply Nat.eq_of_testBit_eq
  intro i
  rw [testBit_leInt, streamBit_packBits]
  by_cases hi : i < 8 * L
  · rw [testBit_merge _ _ _ _ _ _ hv hi, testBit_leInt]
    simp [hi, valueIndex]
  · have hout : ¬(o ≤ i ∧ i < o + w) := by omega
    simp [hi, testBit_shiftLeft_of_lt o i hv, hout, testBit_leInt]

/-! ## The checks of PACK and UNPACK -/

/-- PACK's checks are UNPACK's, and VALUE after them (41_codec_ops.md R89, 60_exceptions.md R128). -/
theorem check_pack_eq_check_unpack (P : Params) (w o v v' L : Nat) :
    check P 1 w o v L =
      if check P 2 w o v' L = .none then (if 2 ^ w ≤ v then .value else .none) else check P 2 w o v' L := by
  rw [check_pack, check_unpack]
  by_cases hw : P.maxW < w
  · simp [hw]
  · by_cases hb : P.streamCap < L ∨ 8 * L < o + w
    · simp [hw, hb]
    · simp [hw, hb]

theorem check_pack_eq_iff {P : Params} {w o v v' L : Nat} {c : Cause} (hnone : c ≠ .none) (hvalue : c ≠ .value) :
    check P 1 w o v L = c ↔ check P 2 w o v' L = c := by
  rw [check_pack_eq_check_unpack P w o v v']
  split
  next h =>
    rw [h]
    split_ifs <;> simp [hnone.symm, hvalue.symm]
  next => rfl

theorem check_unpack_ne_value (P : Params) (w o v L : Nat) : check P 2 w o v L ≠ .value := by
  rw [check_unpack]
  split_ifs <;> decide

namespace Machine

/-! ## The outputs of a command -/

theorem State.runCommand_valueOut (s : State) (op w o v : Nat) :
    (s.runCommand op w o v).valueOut = (evaluate s.params op w o v s.len s.mem).value := by
  unfold State.runCommand
  simp only
  split_ifs <;> rfl

/-- The host goes on with the command's stream, on an error the one that came in (60_exceptions.md R129). -/
theorem State.runCommand_mem (s : State) (op w o v : Nat) :
    (s.runCommand op w o v).mem = (evaluate s.params op w o v s.len s.mem).stream := by
  by_cases hc : check s.params op w o v s.len = .none
  · have he : (evaluate s.params op w o v s.len s.mem).err = false := by rw [evaluate_err, hc]; rfl
    simp only [State.runCommand, he, Bool.false_eq_true, if_false]
    split_ifs <;> rfl
  · rw [State.runCommand_of_error hc, evaluate_of_error hc]
    rfl

/-- Settles O1: `runCommand_nop` for the command the bundle decodes to. -/
theorem nopPassesStreamThrough : Obligations.NopPassesStreamThrough := by
  intro b s hop
  rw [exec_decodeCommand, hop, State.runCommand_nop]

/-- Settles O15: the outputs are `evaluate`'s, whose arguments are the inputs. -/
theorem outputsDependOnInputsAlone : Obligations.OutputsDependOnInputsAlone := by
  intro b s s' hparams hmem hlen
  refine ⟨_, _, exec_decodeCommand b s, exec_decodeCommand b s', ?_, ?_, ?_, ?_⟩
  · rw [State.runCommand_mem, State.runCommand_mem, hparams, hmem, hlen]
  · rw [State.runCommand_valueOut, State.runCommand_valueOut, hparams, hmem, hlen]
  · rw [State.runCommand_err, State.runCommand_err, hparams, hlen]
  · rw [State.runCommand_cause, State.runCommand_cause, hparams, hlen]

/-- Settles O14: UNPACK's checks come first in PACK's, and VALUE is none of them. -/
theorem packAndUnpackShareChecks : Obligations.PackAndUnpackShareChecks := by
  intro s w o v
  refine ⟨s.runCommand 1 w o v, s.runCommand 2 w o 0, rfl, rfl, ?_⟩
  rw [State.runCommand_cause, State.runCommand_cause]
  exact ⟨check_pack_eq_iff (by decide) (by decide), check_pack_eq_iff (by decide) (by decide),
    check_unpack_ne_value s.params w o 0 s.len⟩

/-! ## PACK and UNPACK -/

/-- Settles O2: the field's bits, the bits outside it, and the whole next state of a PACK. -/
theorem packWritesExactlyItsField : Obligations.PackWritesExactlyItsField := by
  intro s w o v hw hL hf hv
  refine ⟨_, exec_pack ⟨hw, hL, hf, hv⟩, fun hb j hj => ?_, fun hb j hj => ?_, fun k hk => ?_, rfl⟩
  · simp only [hb]
    exact streamBit_packBits_field .lsbFirst s.mem o v hj
  · simp only [hb]
    exact streamBit_packBits_field .msbFirst s.mem o v hj
  · exact streamBit_packBits_outside _ s.mem v hk

/-- Settles O3, by `leInt_packBits`. -/
theorem packMergesIntoLittleEndianInteger : Obligations.PackMergesIntoLittleEndianInteger := by
  intro s w o v hb hw hL hf hv
  refine ⟨_, exec_pack ⟨hw, hL, hf, hv⟩, ?_⟩
  simp only [hb]
  exact leInt_packBits s.mem hf hv

/-- Settles O4: bit `j` of the value under LSB_FIRST, bit `w - 1 - j` under MSB_FIRST, is stream bit `o + j`. -/
theorem unpackReadsItsField : Obligations.UnpackReadsItsField := by
  intro s w o hw hL hf
  refine ⟨_, exec_unpack ⟨hw, hL, hf⟩, fun hb j hj => ?_, fun hb j hj => ?_, unpackBits_lt .., rfl⟩
  · simp [hb, testBit_unpackBits, hj, valueIndex]
  · have hback : w - 1 - (w - 1 - j) = j := by omega
    simp [hb, testBit_unpackBits, valueIndex, hback, show w - 1 - j < w by omega]

/-- Settles O9: R76's loop visits the positions of its field alone. -/
theorem packFramesOtherBits : Obligations.PackFramesOtherBits := by
  intro s t w o v h he
  obtain ⟨-, rfl⟩ := pack_completed h he
  exact ⟨fun k _ hk => streamBit_packBits_outside _ s.mem v (by omega), rfl⟩

/-- Settles O8: the UNPACK's checks are among those the PACK passed. -/
theorem unpackReturnsWhatPackWrote : Obligations.UnpackReturnsWhatPackWrote := by
  intro s t w o v h he
  obtain ⟨⟨hw, hL, hf, hv⟩, rfl⟩ := pack_completed h he
  exact ⟨_, exec_unpack ⟨hw, hL, hf⟩, rfl, unpackBits_packBits _ s.mem hv⟩

/-- Settles O11: the value unpacked fits its width, so the PACK completes. -/
theorem repackIsIdentity : Obligations.RepackIsIdentity := by
  intro s t w o hS h he
  obtain ⟨⟨hw, hL, hf⟩, rfl⟩ := unpack_completed h he
  exact ⟨_, exec_pack ⟨hw, hL, hf, unpackBits_lt ..⟩, rfl, packBits_unpackBits _ o w hS⟩

/-- Settles O12: both clauses are `packBits_packBits_same`, the second one with the same value twice. -/
theorem lastPackWins : Obligations.LastPackWins := by
  intro s s1 s2 w o v1 v2 hS h1 he1 h2 he2
  obtain ⟨hc1, rfl⟩ := pack_completed h1 he1
  obtain ⟨hc2, rfl⟩ := pack_completed h2 he2
  exact ⟨⟨_, exec_pack hc2, rfl, (packBits_packBits_same _ o w v1 v2 hS).symm⟩,
    ⟨_, exec_pack hc1, rfl, packBits_packBits_same _ o w v1 v1 hS⟩⟩

/-- Settles O13: a PACK's checks do not read the stream, so both pass in the other order too. -/
theorem disjointPacksCommute : Obligations.DisjointPacksCommute := by
  intro s s1 s2 w1 o1 v1 w2 o2 v2 hS hdis h1 he1 h2 he2
  obtain ⟨hc1, rfl⟩ := pack_completed h1 he1
  obtain ⟨hc2, rfl⟩ := pack_completed h2 he2
  exact ⟨_, _, exec_pack hc2, rfl, exec_pack hc1, rfl, packBits_comm _ v1 v2 hS hdis⟩

/-- Settles O16: the checks do not read the stream, and the value reads the field's bits alone. -/
theorem unpackIgnoresOtherBits : Obligations.UnpackIgnoresOtherBits := by
  intro s S w o hbits
  refine ⟨s.runCommand 2 w o 0, _, rfl, rfl, ?_⟩
  by_cases hc : check s.params 2 w o 0 s.len = .none
  · have hval : unpackBits s.params.bitOrder S o w = unpackBits s.params.bitOrder s.mem o w :=
      unpackBits_congr fun j hj => hbits (o + j) (by omega) (by omega)
    rw [State.runCommand_unpack hc, State.runCommand_unpack (s := { s with mem := S }) hc, hval]
  · rw [State.runCommand_of_error hc, State.runCommand_of_error (s := { s with mem := S }) hc]

end Machine
end Sys2Proof
end

section
/-! The datapath (41_codec_ops.md R78 to R80): its window is itself a field, the one of whole bytes around the command's
field, so gathering it is an UNPACK, scattering it a PACK, and both bit orders have one proof. -/

namespace Sys2Proof.Datapath

/-! ## The window of a field -/

theorem firstByte_eq (o : Nat) : firstByte o = o / 8 := Nat.shiftRight_eq_div_pow o 3

theorem bytesTouched_of_pos (o : Nat) {w : Nat} (hw : 0 < w) : bytesTouched o w = (o % 8 + w + 7) / 8 := by
  rw [bytesTouched, if_neg (by omega), Nat.shiftRight_eq_div_pow, phase]

theorem shiftAmount_lt (order : BitOrder) (o : Nat) {w : Nat} (hw : 0 < w) : shiftAmount order o w < 8 := by
  cases order <;> simp only [shiftAmount, bytesTouched_of_pos o hw, phase] <;> omega

/-- The value moved up by the shift stays in the window. -/
theorem shiftAmount_add_le (order : BitOrder) (o : Nat) {w : Nat} (hw : 0 < w) :
    shiftAmount order o w + w ≤ 8 * bytesTouched o w := by
  cases order <;> simp only [shiftAmount, bytesTouched_of_pos o hw, phase] <;> omega

/-- The barrel shift moves bit `i` of the value to the window bit that stands for the same stream bit. -/
theorem position_of_shifted (order : BitOrder) (o : Nat) {w i : Nat} (hi : i < w) :
    8 * firstByte o + valueIndex order (8 * bytesTouched o w) (shiftAmount order o w + i) =
      o + valueIndex order w i := by
  have hw : 0 < w := by omega
  cases order <;> simp only [valueIndex, shiftAmount, firstByte_eq, bytesTouched_of_pos o hw, phase] <;> omega

/-- A window bit under the mask stands for a stream bit of the field. -/
theorem position_of_masked (order : BitOrder) (o : Nat) {w i : Nat}
    (hi : shiftAmount order o w ≤ i ∧ i < shiftAmount order o w + w) :
    o ≤ 8 * firstByte o + valueIndex order (8 * bytesTouched o w) i ∧
      8 * firstByte o + valueIndex order (8 * bytesTouched o w) i < o + w := by
  obtain ⟨j, rfl⟩ := Nat.exists_eq_add_of_le hi.1
  have hj : j < w := by omega
  have hindex := valueIndex_lt order hj
  rw [position_of_shifted order o hj]
  omega

/-- A stream bit of the field stands under the mask, at its place in the value. -/
theorem window_index_of_field (order : BitOrder) {o w k : Nat} (hlo : o ≤ k) (hhi : k < o + w) :
    valueIndex order (8 * bytesTouched o w) (k - 8 * firstByte o) =
      shiftAmount order o w + valueIndex order w (k - o) := by
  have hw : 0 < w := by omega
  cases order <;> simp only [valueIndex, shiftAmount, firstByte_eq, bytesTouched_of_pos o hw, phase] <;> omega

/-! ## Gathering and UNPACK -/

theorem streamBit_eight_mul_add (order : BitOrder) (S : Memory) (a k : Nat) :
    streamBit order S (8 * a + k) = (S.read (a + k / 8)).getLsbD (bitIndex order k) := by
  have hbyte : (8 * a + k) / 8 = a + k / 8 := by omega
  have hbit : bitIndex order (8 * a + k) = bitIndex order k := by
    cases order <;> simp only [bitIndex] <;> omega
  rw [streamBit, hbyte, hbit]

/-- A byte moved to its lane fills the window bits whose stream bits stand in that byte. -/
theorem testBit_byte_shiftLeft_lane (order : BitOrder) (b : Byte) {n nb : Nat} (hn : n < nb) (i : Nat) :
    (b.toNat <<< lane order nb n).testBit i =
      (decide (i < 8 * nb ∧ valueIndex order (8 * nb) i / 8 = n) &&
        b.getLsbD (bitIndex order (valueIndex order (8 * nb) i))) := by
  rw [Nat.testBit_shiftLeft, testBit_byte]
  by_cases hlane : lane order nb n ≤ i ∧ i < lane order nb n + 8
  · have hbyte : i < 8 * nb ∧ valueIndex order (8 * nb) i / 8 = n := by
      cases order <;> simp only [lane, valueIndex] at hlane ⊢ <;> omega
    have hbit : i - lane order nb n = bitIndex order (valueIndex order (8 * nb) i) := by
      cases order <;> simp only [lane, valueIndex, bitIndex] at hlane ⊢ <;> omega
    simp [hlane.1, hbyte, hbit]
  · have hbyte : ¬(i < 8 * nb ∧ valueIndex order (8 * nb) i / 8 = n) := by
      cases order <;> simp only [lane, valueIndex] at hlane ⊢ <;> omega
    rw [decide_eq_false hbyte, Bool.false_and]
    by_cases hlow : lane order nb n ≤ i
    · rw [BitVec.getLsbD_of_ge _ _ (by omega), Bool.and_false]
    · simp [hlow]

theorem testBit_gatherLanes (order : BitOrder) (S : Memory) (i0 : Nat) {nb n : Nat} (hn : n ≤ nb) (i : Nat) :
    (gatherLanes order S i0 nb n).testBit i =
      (decide (i < 8 * nb ∧ valueIndex order (8 * nb) i / 8 < n) &&
        streamBit order S (8 * i0 + valueIndex order (8 * nb) i)) := by
  induction n generalizing i with
  | zero => simp [gatherLanes]
  | succ n ih =>
    have hlow := ih (by omega)
    have hbyte := testBit_byte_shiftLeft_lane order (S.read (i0 + n)) (show n < nb by omega)
    have hdisjoint : gatherLanes order S i0 nb n &&& (S.read (i0 + n)).toNat <<< lane order nb n = 0 := by
      apply Nat.eq_of_testBit_eq
      intro k
      rw [Nat.testBit_and, hlow, hbyte, Nat.zero_testBit]
      by_cases hk : valueIndex order (8 * nb) k / 8 = n <;> simp [hk]
    rw [gatherLanes, add_eq_or_of_and_eq_zero hdisjoint, Nat.testBit_or, hlow, hbyte]
    rcases lt_trichotomy (valueIndex order (8 * nb) i / 8) n with hi | hi | hi
    · simp [hi, hi.ne, Nat.lt_succ_of_lt hi]
    · have hread : streamBit order S (8 * i0 + valueIndex order (8 * nb) i) =
          (S.read (i0 + n)).getLsbD (bitIndex order (valueIndex order (8 * nb) i)) := by
        rw [streamBit_eight_mul_add, hi]
      simp [hi, hread]
    · simp [hi.ne', show ¬ valueIndex order (8 * nb) i / 8 < n by omega,
        show ¬ valueIndex order (8 * nb) i / 8 < n + 1 by omega]

/-- The window is the number the field of its bytes holds. -/
theorem gather_eq_unpackBits (order : BitOrder) (S : Memory) (o w : Nat) :
    gather order S o w = unpackBits order S (8 * firstByte o) (8 * bytesTouched o w) := by
  apply Nat.eq_of_testBit_eq
  intro i
  rw [gather, testBit_gatherLanes order S _ le_rfl, testBit_unpackBits]
  by_cases hi : i < 8 * bytesTouched o w
  · have hbyte : valueIndex order (8 * bytesTouched o w) i / 8 < bytesTouched o w := by
      have := valueIndex_lt order hi
      omega
    simp [hi, hbyte]
  · simp [hi]

/-- Settles O21: under the mask, bit `i` of the shifted window stands where bit `i` of the value does. -/
theorem datapathComputesUnpack : Obligations.DatapathComputesUnpack := by
  intro order S o w
  apply Nat.eq_of_testBit_eq
  intro i
  rw [unpack, Nat.testBit_and, Nat.testBit_shiftRight, Nat.testBit_two_pow_sub_one, gather_eq_unpackBits,
    testBit_unpackBits, testBit_unpackBits]
  by_cases hi : i < w
  · have hin : shiftAmount order o w + i < 8 * bytesTouched o w := by
      have := shiftAmount_add_le order o (show 0 < w by omega)
      omega
    simp [hi, hin, position_of_shifted order o hi]
  · simp [hi]

/-! ## Scattering and PACK -/

theorem read_scatterLanes (order : BitOrder) (S : Memory) (i0 nb window n a : Nat) :
    (scatterLanes order S i0 nb window n).read a =
      if i0 ≤ a ∧ a < i0 + n then BitVec.ofNat 8 (window >>> lane order nb (a - i0)) else S.read a := by
  induction n with
  | zero => rw [scatterLanes, if_neg (by omega)]
  | succ n ih =>
    rw [scatterLanes, Memory.read_write, ih]
    by_cases ha : a = i0 + n
    · subst ha
      simp
    · rw [if_neg ha]
      exact if_congr (by omega) rfl rfl

theorem wf_scatterLanes (order : BitOrder) {S : Memory} (i0 nb window n : Nat) (hS : S.wf = true) :
    (scatterLanes order S i0 nb window n).wf = true := by
  induction n with
  | zero => exact hS
  | succ n ih => exact Memory.wf_write _ _ ih

/-- Scattering a window packs it into the field of its bytes. -/
theorem scatterLanes_eq_packBits (order : BitOrder) {S : Memory} (i0 nb window : Nat) (hS : S.wf = true) :
    scatterLanes order S i0 nb window nb = packBits order S (8 * i0) (8 * nb) window := by
  refine packBits_eq_of_bits (wf_scatterLanes order i0 nb window nb hS) (wf_packBits order _ _ _ hS)
    (order := order) fun k => ?_
  rw [streamBit_packBits, streamBit, read_scatterLanes]
  by_cases hk : 8 * i0 ≤ k ∧ k < 8 * i0 + 8 * nb
  · have hbit : lane order nb (k / 8 - i0) + bitIndex order k = valueIndex order (8 * nb) (k - 8 * i0) := by
      cases order <;> simp only [lane, bitIndex, valueIndex] <;> omega
    rw [if_pos (by omega), if_pos hk, BitVec.getLsbD_ofNat, Nat.testBit_shiftRight, hbit]
    simp [bitIndex_lt]
  · rw [if_neg (by omega), if_neg hk, streamBit]

/-- Inside the window the merge puts the value's bits at the shift and keeps the others. -/
theorem testBit_merged (order : BitOrder) (S : Memory) (o : Nat) {w v i : Nat} (hv : v < 2 ^ w)
    (hi : i < 8 * bytesTouched o w) :
    (merged order S o w v).testBit i =
      if shiftAmount order o w ≤ i ∧ i < shiftAmount order o w + w then v.testBit (i - shiftAmount order o w)
      else (gather order S o w).testBit i :=
  testBit_merge _ _ _ _ _ _ hv hi

/-- Settles O20: the window bit of a stream bit is the value's in the field, and the stream's own beside it. -/
theorem datapathComputesPack : Obligations.DatapathComputesPack := by
  intro order S o w v hS hv
  rw [pack, scatterLanes_eq_packBits order _ _ _ hS]
  refine packBits_eq_of_bits (wf_packBits order _ _ _ hS) (wf_packBits order _ _ _ hS) (order := order) fun k => ?_
  rw [streamBit_packBits, streamBit_packBits]
  by_cases hf : o ≤ k ∧ k < o + w
  · obtain ⟨hlo, hhi⟩ := hf
    obtain ⟨hfirst, hlast⟩ := byte_of_field_bit_mem_touched hlo hhi
    have hindex := valueIndex_lt order (show k - o < w by omega)
    have hend := shiftAmount_add_le order o (show 0 < w by omega)
    rw [if_pos (by omega), if_pos ⟨hlo, hhi⟩, window_index_of_field order hlo hhi,
      testBit_merged order S o hv (by omega), if_pos (by omega), Nat.add_sub_cancel_left]
  · rw [if_neg hf]
    split
    next hwin =>
      have hin : k - 8 * firstByte o < 8 * bytesTouched o w := by omega
      have hback := valueIndex_valueIndex order hin
      have hsame : 8 * firstByte o + (k - 8 * firstByte o) = k := by omega
      have hmask : ¬(shiftAmount order o w ≤ valueIndex order (8 * bytesTouched o w) (k - 8 * firstByte o) ∧
          valueIndex order (8 * bytesTouched o w) (k - 8 * firstByte o) < shiftAmount order o w + w) := fun hm =>
        hf (by simpa only [hback, hsame] using position_of_masked order o hm)
      rw [testBit_merged order S o hv (valueIndex_lt order hin), if_neg hmask, gather_eq_unpackBits,
        testBit_unpackBits, hback, hsame, decide_eq_true (valueIndex_lt order hin), Bool.true_and]
    next => rfl

/-! ## The size of the window -/

/-- The bytes a field of at most `MAX_W` bits touches fit the window (20_memory.md R43, 41_codec_ops.md R80). -/
theorem bytesTouched_le_windowBits {P : Params} {o w : Nat} (hw : w ≤ P.maxW) (hpos : 0 < w) :
    8 * bytesTouched o w ≤ windowBits P := by
  rw [bytesTouched_of_pos o hpos, windowBits]
  omega

theorem gather_lt (order : BitOrder) (S : Memory) (o w : Nat) : gather order S o w < 2 ^ (8 * bytesTouched o w) := by
  rw [gather_eq_unpackBits]
  exact unpackBits_lt ..

theorem mask_lt (order : BitOrder) (o : Nat) {w : Nat} (hw : 0 < w) : mask order o w < 2 ^ (8 * bytesTouched o w) := by
  apply Nat.lt_pow_two_of_testBit
  intro i hi
  have hend := shiftAmount_add_le order o hw
  rw [mask, testBit_ones_shiftLeft]
  exact decide_eq_false (by omega)

/-- Settles O22: the window and the mask fit the bytes touched, which fit `windowBits`. -/
theorem datapathStaysInItsWindow : Obligations.DatapathStaysInItsWindow := by
  refine ⟨fun P hP => by rw [windowBits, hP], fun P order S o w L hw hpos hf => ?_⟩
  have hwindow := bytesTouched_le_windowBits (o := o) hw hpos
  have hpow : 2 ^ (8 * bytesTouched o w) ≤ 2 ^ windowBits P := Nat.pow_le_pow_right two_pos hwindow
  refine ⟨hwindow, shiftAmount_lt order o hpos, (gather_lt order S o w).trans_le hpow,
    (mask_lt order o hpos).trans_le hpow, ?_, ?_⟩
  · rw [firstByte_eq, bytesTouched_of_pos o hpos]
    omega
  · rw [firstByte_eq, bytesTouched_of_pos o hpos]
    omega

end Sys2Proof.Datapath
end

section
/-! Instructions and runs answer (41_codec_ops.md R74, R81, 42_record_layouts.md R106). -/

namespace Sys2Proof.Machine

/-- Settles O47: a command or a record, an instruction answers what it ran. -/
theorem everyInstructionAnswers : Obligations.EveryInstructionAnswers := by
  intro i s
  rcases exec_eq_runCommand_or_runRecord i s with ⟨op, w, o, v, -, -, h⟩ | ⟨m, ops, h⟩
  · exact ⟨_, h⟩
  · exact ⟨_, h⟩

theorem State.walkTurn_ne_stuck {s : State} (hp : s.p ≤ s.len) (rest again : List Action) (f : Fault) :
    s.walkTurn rest again ≠ .stuck f := by
  rw [State.walkTurn, if_neg (by omega)]
  split
  · exact Work.noConfusion
  · split <;> exact Work.noConfusion

/-- The host's walk is the one action that can be stuck, and only beyond the stream (log 11). -/
theorem State.perform_ne_stuck {s : State} (hp : s.p ≤ s.len) (a : Action) (rest : List Action) (f : Fault) :
    s.perform a rest ≠ .stuck f := by
  cases a with
  | present bytes n => exact Work.noConfusion
  | command b => exact Work.noConfusion
  | startEncode => exact Work.noConfusion
  | encode m ops =>
    rw [State.perform, State.encodeTurn]
    split <;> exact Work.noConfusion
  | presentEncoded => exact Work.noConfusion
  | startWalk => exact Work.noConfusion
  | walkStep => exact State.walkTurn_ne_stuck hp rest rest f
  | walk => exact State.walkTurn_ne_stuck hp rest (.walk :: rest) f

theorem step_answers {s : State} (hp : s.p ≤ s.len) : ∃ t, step s = .next t := by
  by_cases he : s.ended
  · exact ⟨s, step_of_ended he⟩
  · obtain ⟨hh, ha⟩ : s.halt = none ∧ s.agenda ≠ [] := by simpa [State.ended] using he
    obtain ⟨a, rest, ha⟩ := List.exists_cons_of_ne_nil ha
    rw [step_of_action hh ha]
    cases hw : s.perform a rest with
    | settled t => exact ⟨t, rfl⟩
    | run i t => exact everyInstructionAnswers i t
    | stuck f => exact absurd hw (State.perform_ne_stuck hp a rest f)

@[simp] theorem State.runCommand_p (s : State) (op w o v : Nat) : (s.runCommand op w o v).p = s.p := by
  unfold State.runCommand
  simp only
  split_ifs <;> simp

/-- `0 <= p <= L` (42_record_layouts.md R106): only a record that lies inside the stream moves the pointer up. -/
theorem step_keeps_pointer_in_stream {s t : State} (hp : s.p ≤ s.len) (h : step s = .next t) : t.p ≤ t.len := by
  cases step_cases h with
  | ended _ ht => exact ht ▸ hp
  | present bytes n rest _ _ ht => simp [ht]
  | command b rest _ _ ht => simpa [ht] using hp
  | startEncode rest _ _ ht => simpa [ht] using hp
  | encode m ops rest q _ _ ht =>
    obtain ⟨-, -, hlen, hptr, -⟩ := State.encode_frame ((s.withAgenda rest).withProcedure q) m ops
    rw [ht, hlen, hptr]
    exact hp
  | presentEncoded rest _ _ ht => simp [ht]
  | startWalk rest _ _ ht => simp [ht]
  | walkDone a rest again _ _ _ _ ht => simpa [ht] using hp
  | walkError a rest again e _ _ _ _ _ ht => simpa [ht] using hp
  | walkTake a rest again i m ops _ _ _ _ hd hi ht =>
    obtain ⟨m', -, hlen, -, hi'⟩ := decodeRecord_eq_ok hd
    obtain ⟨rfl, -⟩ : m' = m ∧ _ := by simpa [hi'] using hi
    simpa [ht] using hlen

theorem run_answers {s : State} (hp : s.p ≤ s.len) (n : Nat) : ∃ t, core.run n s = .next t := by
  induction n generalizing s with
  | zero => exact ⟨s, run_zero s⟩
  | succ n ih =>
    obtain ⟨u, hu⟩ := step_answers hp
    rw [run_step n hu]
    exact ih (step_keeps_pointer_in_stream hp hu)

/-- Settles O56: of the invariant it takes the pointer alone, which every step keeps inside the stream. -/
theorem safeRunsNeverStop : Obligations.SafeRunsNeverStop := fun _ n hs => run_answers hs.pointer n

end Sys2Proof.Machine
end

section
/-! The record procedures on their own: what `EncodeRecord` builds and what `DecodeRecord` reads of it
(42_record_layouts.md R97 to R105, R110). -/

namespace Sys2Proof

/-! ## Records that stand anywhere in a stream -/

/-- Streams that agree on a byte agree on its bits, wherever the byte stands in each of them. -/
theorem streamBit_of_read_eq (order : BitOrder) {S S' : Memory} {p k : Nat}
    (h : S.read (p + k / 8) = S'.read (k / 8)) : streamBit order S (8 * p + k) = streamBit order S' k := by
  rw [Datapath.streamBit_eight_mul_add, h, streamBit]

/-- Bytes have the same bits inside a longer sequence as alone (30_encoding.md R69). -/
theorem streamBit_ofBytes_between (order : BitOrder) (before bytes after : List Byte) {k : Nat}
    (hk : k < 8 * bytes.length) :
    streamBit order (Memory.ofBytes (before ++ bytes ++ after)) (8 * before.length + k) =
      streamBit order (Memory.ofBytes bytes) k := by
  refine streamBit_of_read_eq order ?_
  have hb : k / 8 < bytes.length := by omega
  rw [Memory.read_ofBytes, Memory.read_ofBytes, List.append_assoc, List.getD_append_right _ _ _ _ (by omega),
    Nat.add_sub_cancel_left, List.getD_append _ _ _ _ hb]

/-- Settles O42: the record's bits are those of its own bytes, and its decoding reads no others. -/
theorem recordDecodesAsItsOwnStream : Obligations.RecordDecodesAsItsOwnStream := by
  intro P S S' p L i m ops hP hd hi hbytes
  obtain ⟨m', ht, hL, -, hi'⟩ := decodeRecord_eq_ok hd
  obtain ⟨rfl, -⟩ : m' = m ∧ _ := by simpa [hi'] using hi
  have hU := usedBits_le hP m'
  rw [← hd]
  refine decodeRecord_congr ht hL (by omega) fun k hk => ?_
  rw [Nat.mul_zero, Nat.zero_add]
  exact streamBit_of_read_eq _ (hbytes (k / 8) (by omega)).symm

/-! ## Padding -/

theorem decodeRecord_of_truncated {P : Params} {S : Memory} {p L : Nat} {m : Kind}
    (ht : Kind.ofTag (tagAt P S p) = some m) (hl : L < p + (layout P m).len) :
    decodeRecord P S p L = .error (.truncatedProgram p (tagAt P S p) (layout P m).len (L - p)) := by
  rw [decodeRecord, ht]
  exact if_pos hl

/-- Settles O28: neither the tag nor a field holds a padding bit; the example is run through the decoder. -/
theorem paddingBitsAreNotRead : Obligations.PaddingBitsAreNotRead := by
  refine ⟨fun P S S' p L m ht hbits => ?_, by decide⟩
  by_cases hL : p + (layout P m).len ≤ L
  · exact decodeRecord_congr ht hL hL hbits
  · have htag : tagAt P S p = tagAt P S' p :=
      unpackBits_congr fun j hj => hbits j (by rw [Layout.usedBits]; omega)
    rw [decodeRecord_of_truncated ht (by omega), decodeRecord_of_truncated (htag ▸ ht) (by omega), htag]

namespace Machine

/-! ## EncodeRecord -/

/-- Settles O29: the buffer's bits are those of the packed fields, and so are those of the format's number. -/
theorem encodeRecordBuildsTheFormat : Obligations.EncodeRecordBuildsTheFormat := by
  intro P m ops hP h
  rw [encodeRecord_of_inRange hP h]
  refine congrArg Except.ok (bytes_eq_of_streamBit (order := P.bitOrder) (by simp) fun k hk => ?_)
  rw [Memory.length_toBytes] at hk
  rw [streamBit_ofBytes_toBytes _ _ hk, streamBit_recordBytes hP h hk]

/-- `EncodeRecord` returns bytes exactly where the operands fit, and then the format's. -/
theorem encodeRecord_eq_ok {P : Params} (hP : P.legal) {m : Kind} {ops : List Nat} {bytes : List Byte} :
    encodeRecord P m ops = .ok bytes ↔ opsInRange (layout P m) ops ∧ bytes = recordBytes P m ops := by
  constructor
  · intro h
    have hops := inRange_of_encodeRecord hP h
    rw [encodeRecordBuildsTheFormat P m ops hP hops] at h
    exact ⟨hops, (Except.ok.inj h).symm⟩
  · rintro ⟨hops, rfl⟩
    exact encodeRecordBuildsTheFormat P m ops hP hops

/-- Settles O31: the encoding procedure appends what `EncodeRecord` returns. -/
theorem recordInstructionEncodes : Obligations.RecordInstructionEncodes := by
  intro i m ops s hi hP hwf hq
  have hops := (wf_iff_opsInRange s.params hi).1 hwf
  rw [exec_record hi, State.runRecord_encoding hq, State.encode_of_ok ((encodeRecord_eq_ok hP).2 ⟨hops, rfl⟩)]

/-- A record instruction that can be written down encodes to its fields packed one after another on zero bytes. -/
theorem encodeRecord_of_wf {P : Params} (hP : P.legal) {i : Instr} {m : Kind} {ops : List Nat}
    (hi : i.recordOps = some (m, ops)) (hwf : i.wf P = true) :
    encodeRecord P m ops =
      .ok (Memory.toBytes (packFields P.bitOrder [] 0 (recordFields (layout P m) ops)) (layout P m).len) :=
  encodeRecord_of_inRange hP ((wf_iff_opsInRange P hi).1 hwf)

/-- Settles O30: R96's table put into the general sequences of PACKs and UNPACKs, kind by kind. -/
theorem recordsAreTheirCommandSequences : Obligations.RecordsAreTheirCommandSequences := by
  intro P b c d hP hc
  refine ⟨fun hb => ?_, fun hb => ?_, fun hb hd => ?_, fun hb hd => ?_, fun S p L => ⟨?_, ?_, ?_, ?_⟩⟩
  · exact encodeRecord_of_wf hP (i := .load b c) rfl (by simpa [Instr.wf] using ⟨hb, hc⟩)
  · exact encodeRecord_of_wf hP (i := .write b c) rfl (by simpa [Instr.wf] using ⟨hb, hc⟩)
  · exact encodeRecord_of_wf hP (i := .min b c d) rfl (by simpa [Instr.wf] using ⟨⟨hb, hc⟩, hd⟩)
  · exact encodeRecord_of_wf hP (i := .read b c d) rfl (by simpa [Instr.wf] using ⟨⟨hb, hc⟩, hd⟩)
  · exact fun ht hL => decodeRecord_of_tag (m := .load) (by rw [ht]; rfl) hL
  · exact fun ht hL => decodeRecord_of_tag (m := .write) (by rw [ht]; rfl) hL
  · exact fun ht hL => decodeRecord_of_tag (m := .min) (by rw [ht]; rfl) hL
  · exact fun ht hL => decodeRecord_of_tag (m := .read) (by rw [ht]; rfl) hL

/-! ## The round trip -/

/-- An encoded record decodes wherever its bytes stand in a stream (R105, 30_encoding.md R69). -/
theorem decodeRecord_of_encodeRecord {P : Params} (hP : P.legal) {m : Kind} {ops : List Nat} {bytes : List Byte}
    (h : encodeRecord P m ops = .ok bytes) (before after : List Byte) :
    ∃ i, decodeRecord P (Memory.ofBytes (before ++ bytes ++ after)) before.length
        (before ++ bytes ++ after).length = .ok i ∧
      i.recordOps = some (m, ops) ∧ bytes.length = (layout P m).len := by
  obtain ⟨hops, rfl⟩ := (encodeRecord_eq_ok hP).1 h
  have hlen := length_recordBytes P m ops
  obtain ⟨i, hi⟩ := Option.ne_none_iff_exists'.1 fun hnone => (ofOps_eq_none P).1 hnone hops.1
  have hi := ofOps_eq_some.1 hi
  refine ⟨i, decodeRecord_of_recordBytes hP hops hi _ _ _ (by simp) fun k hk => ?_, hi, hlen⟩
  exact streamBit_ofBytes_between P.bitOrder before _ after (by omega)

/-- Settles O35: an encoded record with no byte before or after it. -/
theorem recordRoundTrip : Obligations.RecordRoundTrip := by
  intro P m ops bytes hP h
  simpa using decodeRecord_of_encodeRecord hP h [] []

end Machine
end Sys2Proof
end

section
/-! The host's steps one by one: which instruction each runs, what it does to the walk and its pointer, and that each keeps
a safe state safe (42_record_layouts.md R97, R103, R106, R111 to R114). -/

namespace Sys2Proof.Machine

/-! ## Which instruction a step runs -/

/-- Settles O37: the decoding procedure takes the record over. -/
theorem recordInstructionIsTakenOver : Obligations.RecordInstructionIsTakenOver := by
  intro i m ops s hi hq
  rw [exec_record hi, State.runRecord_decoding hq]
  rfl

/-- Settles O45: the first action of the agenda, a bundle, is decoded and run. -/
theorem stepRunsThePresentedCommand : Obligations.StepRunsThePresentedCommand := by
  intro s b rest hh ha
  rw [step_of_action hh ha]
  rfl

theorem step_of_command {s : State} {b : Bundle} {rest : List Action} (hh : s.halt = none)
    (ha : s.agenda = .command b :: rest) :
    step s = .next ((s.withAgenda rest).runCommand b.op b.w b.o b.v) :=
  (stepRunsThePresentedCommand s b rest hh ha).trans (exec_decodeCommand b _)

/-- Settles O46: a turn of the walk inside the stream, and an encode of operands that make an instruction. -/
theorem stepRunsTheRecord : Obligations.StepRunsTheRecord := by
  intro s a rest i hh ha
  refine ⟨fun again hw hp hd => step_of_walk_record hh ha hw hp hd, ?_⟩
  rintro m ops rfl hi
  rw [step_of_action hh ha, State.perform, State.encodeTurn, ofOps_eq_some.2 hi]
  rfl

/-- Settles O55: the first action of the agenda starts a walk. -/
theorem walkStartsAtZero : Obligations.WalkStartsAtZero := by
  intro s rest hh ha
  rw [step_of_action hh ha]
  rfl

/-- Settles O49, by induction on the steps: each of them answers the state itself. -/
theorem endedRunStays : Obligations.EndedRunStays := by
  intro s n he
  induction n with
  | zero => exact run_zero s
  | succ n ih => rw [run_step n (step_of_ended he), ih]

/-! ## The walk's status and its pointer -/

@[simp] theorem State.runCommand_walk (s : State) (op w o v : Nat) : (s.runCommand op w o v).walk = s.walk := by
  unfold State.runCommand
  simp only
  split_ifs <;> simp

/-- A step makes a walk Done only at the end of the stream (42_record_layouts.md R112). -/
theorem pointer_eq_len_of_walk_done {s t : State} (h : step s = .next t) (ht : t.walk = .done)
    (hs : s.walk ≠ .done) : s.p = s.len := by
  cases step_cases h with
  | ended _ hts => exact absurd (hts ▸ ht) hs
  | present bytes n rest _ _ hts => simp [hts] at ht
  | command b rest _ _ hts => exact absurd (by simpa [hts] using ht) hs
  | startEncode rest _ _ hts => exact absurd (by simpa [hts] using ht) hs
  | encode m ops rest q _ _ hts =>
    obtain ⟨-, -, -, -, -, hwalk, -⟩ := State.encode_frame ((s.withAgenda rest).withProcedure q) m ops
    rw [hts, hwalk] at ht
    exact absurd ht hs
  | presentEncoded rest _ _ hts => simp [hts] at ht
  | startWalk rest _ _ hts => simp [hts] at ht
  | walkDone a rest again _ _ _ hp _ => exact hp
  | walkError a rest again e _ _ _ _ _ hts => exact absurd (by simpa [hts] using ht) hs
  | walkTake a rest again i m ops _ _ _ _ _ _ hts => simp [hts] at ht

/-- Settles O41: the loop test at the stream's end, and that no other step makes a walk Done. -/
theorem walkIsDoneExactlyAtTheEnd : Obligations.WalkIsDoneExactlyAtTheEnd := by
  intro s a rest hh ha hwalk
  have hagain : ∃ again, walkAgain a rest again := by
    rcases hwalk with rfl | rfl
    · exact ⟨_, .inl ⟨rfl, rfl⟩⟩
    · exact ⟨_, .inr ⟨rfl, rfl⟩⟩
  obtain ⟨again, hw⟩ := hagain
  exact ⟨step_of_walk_done hh ha hw, fun t => pointer_eq_len_of_walk_done⟩

/-- Settles O50: of all the host's actions only these write the pointer. -/
theorem onlyTheWalkOrPresentingMovesThePointer : Obligations.OnlyTheWalkOrPresentingMovesThePointer := by
  intro s t h hne
  cases step_cases h with
  | ended _ ht => exact absurd (by rw [ht]) hne
  | present bytes n rest _ ha ht => exact .inl ⟨by simp [ht], _, rest, ha, .inl ⟨bytes, n, rfl⟩⟩
  | command b rest _ _ ht => exact absurd (by simp [ht]) hne
  | startEncode rest _ _ ht => exact absurd (by simp [ht]) hne
  | encode m ops rest q _ _ ht =>
    obtain ⟨-, -, -, hp, -⟩ := State.encode_frame ((s.withAgenda rest).withProcedure q) m ops
    exact absurd (ht ▸ hp) hne
  | presentEncoded rest _ ha ht => exact .inl ⟨by simp [ht], _, rest, ha, .inr (.inl rfl)⟩
  | startWalk rest _ ha ht => exact .inl ⟨by simp [ht], _, rest, ha, .inr (.inr rfl)⟩
  | walkDone a rest again _ _ _ _ ht => exact absurd (by simp [ht]) hne
  | walkError a rest again e _ _ _ _ _ ht => exact absurd (by simp [ht]) hne
  | walkTake a rest again i m ops _ ha hw _ hd hi ht =>
    obtain ⟨m', htag, -, -, hi'⟩ := decodeRecord_eq_ok hd
    obtain ⟨rfl, -⟩ : m' = m ∧ _ := by simpa [hi'] using hi
    exact .inr ⟨m', htag, by simp [ht], a, rest, ha, hw.imp (·.1) (·.1)⟩

/-! ## The invariant

One rule per update of the state; a step is made of them. -/

theorem Inv.withAgenda {s : State} (hs : Inv s) (rest : List Action) : Inv (s.withAgenda rest) := { hs with }

theorem Inv.withProcedure {s : State} (hs : Inv s) (q : Procedure) : Inv (s.withProcedure q) := { hs with }

theorem Inv.withEncoded {s : State} (hs : Inv s) (bytes : List Byte) : Inv (s.withEncoded bytes) := { hs with }

theorem Inv.walkDone {s : State} (hs : Inv s) : Inv s.walkDone := { hs with }

theorem Inv.startWalk {s : State} (hs : Inv s) : Inv s.startWalk :=
  { hs with pointer := Nat.zero_le _, records := rfl, operands := List.forall_mem_nil _ }

theorem Inv.presentStream {s : State} (hs : Inv s) {S : Memory} (hS : S.wf = true) (L : Nat) :
    Inv (s.presentStream S L) :=
  { hs with
    mem := hS, pointer := Nat.zero_le _, vals := List.forall_mem_nil _, records := rfl
    operands := List.forall_mem_nil _ }

/-- A command that completes drives a value that fits the port (10_state.md R23), and a canonical stream. -/
theorem Inv.runCommand {s : State} (hs : Inv s) {op : Nat} (hop : op < 4) (w o v : Nat) :
    Inv (s.runCommand op w o v) := by
  have hzero : 0 < 2 ^ s.params.maxW := Nat.two_pow_pos _
  rcases s.runCommand_cases hop w o v with ⟨hc, h⟩ | ⟨-, h⟩ | ⟨-, -, -, -, -, h⟩ | ⟨-, hw, -, -, h⟩ <;> rw [h]
  · exact { hs with value := hzero, flags := (errOf_eq_true.2 hc).symm }
  · exact { hs with value := hzero, flags := rfl }
  · exact { hs with value := hzero, flags := rfl, mem := wf_packBits _ _ _ _ hs.mem }
  · have hv : unpackBits s.params.bitOrder s.mem o w < 2 ^ s.params.maxW :=
      (unpackBits_lt ..).trans_le (Nat.pow_le_pow_right two_pos hw)
    exact { hs with
      value := hv, flags := rfl, vals := List.forall_mem_append.2 ⟨hs.vals, List.forall_mem_singleton.2 hv⟩ }

theorem Inv.encode {s : State} (hs : Inv s) (m : Kind) (ops : List Nat) : Inv (s.encode m ops) := by
  rcases s.encode_cases m ops with ⟨bytes, -, h⟩ | ⟨e, -, h | h⟩ <;> rw [h]
  · exact { hs with value := Nat.two_pow_pos _, flags := rfl }
  · exact { hs with }
  · exact { hs with value := Nat.two_pow_pos _, flags := rfl }

/-- A tag has 3 bits, and the value port has room for the widest field. -/
theorem Inv.walkError {s : State} (hs : Inv s) (e : RecordError) : Inv (s.walkError e) := by
  have hmax : 3 ≤ s.params.maxW := le_trans (by decide) hs.params.1
  exact { hs with value := (unpackBits_lt ..).trans_le (Nat.pow_le_pow_right two_pos hmax), flags := rfl }

/-- An operand that fits its field fits the value port. -/
theorem operand_lt_two_pow_maxW {P : Params} (hP : P.legal) {m : Kind} {ops : List Nat}
    (h : opsInRange (layout P m) ops) : ∀ v ∈ ops, v < 2 ^ P.maxW := by
  obtain ⟨hlen, hfit⟩ := h
  intro v hv
  rw [← List.map_snd_zip (le_of_eq hlen)] at hv
  obtain ⟨f, hf, rfl⟩ := List.mem_map.1 hv
  have hw := widths_le hP m f.1 (List.of_mem_zip hf).1
  exact (hfit f hf).trans_le (Nat.pow_le_pow_right two_pos hw)

/-- A record that lies inside the stream goes to the end of the records without gaps (30_encoding.md R69). -/
theorem Inv.takeRecord {s : State} (hs : Inv s) {m : Kind} {ops : List Nat}
    (hp : s.p + (layout s.params m).len ≤ s.len) (hops : opsInRange (layout s.params m) ops) :
    Inv (s.takeRecord m ops) := by
  have hlast : ops.getLastD 0 < 2 ^ s.params.maxW := by
    rcases List.eq_nil_or_concat ops with rfl | ⟨init, v, rfl⟩
    · exact Nat.two_pow_pos _
    · simpa using operand_lt_two_pow_maxW hs.params hops v (by simp)
  exact { hs with
    value := hlast, flags := rfl, pointer := hp, records := contiguous_snoc m ops hs.records
    operands := List.forall_mem_append.2 ⟨hs.operands, List.forall_mem_singleton.2 hops⟩ }

/-- Settles O53: each of the host's actions is made of updates that keep the invariant. -/
theorem stepKeepsTheInvariant : Obligations.StepKeepsTheInvariant := by
  intro s t hs h
  cases step_cases h with
  | ended _ ht => exact ht ▸ hs
  | present bytes n rest _ _ ht => exact ht ▸ (hs.withAgenda rest).presentStream (Memory.wf_ofBytes bytes) n
  | command b rest _ _ ht => exact ht ▸ (hs.withAgenda rest).runCommand (bundle_op_lt b) b.w b.o b.v
  | startEncode rest _ _ ht => exact ht ▸ (hs.withAgenda rest).withEncoded []
  | encode m ops rest q _ _ ht => exact ht ▸ ((hs.withAgenda rest).withProcedure q).encode m ops
  | presentEncoded rest _ _ ht =>
    exact ht ▸ (hs.withAgenda rest).presentStream (Memory.wf_ofBytes s.encoded) s.encoded.length
  | startWalk rest _ _ ht => exact ht ▸ (hs.withAgenda rest).startWalk
  | walkDone a rest again _ _ _ _ ht => exact ht ▸ hs.walkDone.withAgenda rest
  | walkError a rest again e _ _ _ _ _ ht => exact ht ▸ (hs.withAgenda again).walkError e
  | walkTake a rest again i m ops _ _ _ _ hd hi ht =>
    obtain ⟨m', -, hend, -, hi'⟩ := decodeRecord_eq_ok hd
    obtain ⟨rfl, rfl⟩ : m' = m ∧ _ = ops := by simpa [hi'] using hi
    exact ht ▸ ((hs.withAgenda again).withProcedure .decoding).takeRecord hend (fieldOps_inRange ..)

end Sys2Proof.Machine
end

section
/-! Whole runs: a host sequence, the encode of a program, a walk, and the three in a row (42_record_layouts.md R102, R106
to R114). -/

namespace Sys2Proof.Machine

/-! ## Sequences of commands -/

/-- A command that completes, in the terms of `Run` (42_record_layouts.md R114). -/
theorem State.runCommand_of_outputs {s : State} {op w o v : Nat} {r : Outputs}
    (hr : evaluate s.params op w o v s.len s.mem = r) (he : r.err = false) :
    s.runCommand op w o v = { s with
      mem := r.stream, valueOut := r.value, err := false, cause := r.cause, index := s.index + 1
      vals := if op = 2 then s.vals ++ [r.value] else s.vals } := by
  simp only [State.runCommand, hr, he, Bool.false_eq_true, if_false]
  split <;> rfl

theorem runCommands_cons_of_outputs {P : Params} {L i : Nat} {b : Bundle} {S : Memory} {vals : List Nat} {r : Outputs}
    (hr : evaluate P b.op b.w b.o b.v L S = r) (he : r.err = false) (cmds : List Bundle) :
    runCommands P L (b :: cmds) i S vals =
      runCommands P L cmds (i + 1) r.stream (if b.op = 2 then vals ++ [r.value] else vals) := by
  simp only [runCommands, hr, he, Bool.false_eq_true, if_false]

theorem runCommands_cons_of_error {P : Params} {L : Nat} {b : Bundle} (hc : check P b.op b.w b.o b.v L ≠ .none)
    (cmds : List Bundle) (i : Nat) (S : Memory) (vals : List Nat) :
    runCommands P L (b :: cmds) i S vals = .stopped i (check P b.op b.w b.o b.v L) S vals := by
  simp only [runCommands, evaluate_err, errOf_eq_true.2 hc, evaluate_cause, if_true]

/-- Settles O48, by induction on the commands: an error ends both runs, a command that completes leads both on. -/
theorem machineRunsHostSequences : Obligations.MachineRunsHostSequences := by
  intro cmds
  induction cmds with
  | nil =>
    intro s hh ha
    exact ⟨s, run_zero s, by simp [State.result, hh, ha, runCommands]⟩
  | cons b cmds ih =>
    intro s hh ha
    have hstep := step_of_command hh ha
    rw [List.length_cons, run_step _ hstep]
    by_cases hc : check s.params b.op b.w b.o b.v s.len = .none
    · have he : (evaluate s.params b.op b.w b.o b.v s.len s.mem).err = false := by rw [evaluate_err, hc]; rfl
      rw [State.runCommand_of_outputs (s := s.withAgenda (cmds.map .command)) rfl he,
        runCommands_cons_of_outputs rfl he]
      exact ih _ hh rfl
    · rw [State.runCommand_of_error (s := s.withAgenda (cmds.map .command)) hc, runCommands_cons_of_error hc]
      exact ⟨_, endedRunStays _ _ (.inl (Option.some_ne_none _)), rfl⟩

/-! ## Encoding a program -/

theorem encodeProgram_cons_of_ok {P : Params} {m : Kind} {ops : List Nat} {bytes : List Byte}
    (h : encodeRecord P m ops = .ok bytes) (lines : List (Kind × List Nat)) :
    encodeProgram P ((m, ops) :: lines) = (encodeProgram P lines).map (bytes ++ ·) := by
  rw [encodeProgram, h]
  cases encodeProgram P lines <;> rfl

theorem encodeProgram_cons_of_error {P : Params} {m : Kind} {ops : List Nat} {e : RecordError}
    (h : encodeRecord P m ops = .error e) (lines : List (Kind × List Nat)) :
    encodeProgram P ((m, ops) :: lines) = .error e := by
  rw [encodeProgram, h]

/-- A program that encodes starts with a record that encodes, and goes on with a program that does. -/
theorem encodeProgram_cons_eq_ok {P : Params} {m : Kind} {ops : List Nat} {lines : List (Kind × List Nat)}
    {bytes : List Byte} (h : encodeProgram P ((m, ops) :: lines) = .ok bytes) :
    ∃ first more, encodeRecord P m ops = .ok first ∧ encodeProgram P lines = .ok more ∧ bytes = first ++ more := by
  cases hr : encodeRecord P m ops with
  | error e => rw [encodeProgram_cons_of_error hr] at h; exact absurd h (by simp)
  | ok first =>
    rw [encodeProgram_cons_of_ok hr] at h
    cases hp : encodeProgram P lines with
    | error e => rw [hp] at h; exact absurd h (by simp [Except.map])
    | ok more =>
      rw [hp] at h
      exact ⟨first, more, rfl, rfl, (Except.ok.inj h).symm⟩

/-- An encode of one record that fits, as a state. -/
theorem step_of_encode_ok {s : State} {m : Kind} {ops : List Nat} {rest : List Action} {bytes : List Byte}
    (hh : s.halt = none) (ha : s.agenda = .encode m ops :: rest) (h : encodeRecord s.params m ops = .ok bytes) :
    ∃ q, step s = .next { s with
      agenda := rest, procedure := q, valueOut := 0, err := false, cause := .none
      encoded := s.encoded ++ bytes } := by
  obtain ⟨q, -, hs⟩ := step_of_encode hh ha
  exact ⟨q, hs.trans (congrArg _ (State.encode_of_ok h))⟩

/-- An encode of one record that does not fit ends the run and leaves no bytes (log 9). -/
theorem step_of_encode_error {s : State} {m : Kind} {ops : List Nat} {rest : List Action} {e : RecordError}
    (hh : s.halt = none) (ha : s.agenda = .encode m ops :: rest) (h : encodeRecord s.params m ops = .error e) :
    ∃ t, step s = .next t ∧ t.halt = some (.record e) ∧ t.encoded = [] := by
  obtain ⟨q, -, hs⟩ := step_of_encode hh ha
  exact ⟨_, hs.trans (congrArg _ (State.encode_of_error h)), rfl, rfl⟩

/-- The agenda's encodes of a list of records. -/
abbrev encodeActions (lines : List (Kind × List Nat)) : List Action := lines.map fun l => .encode l.1 l.2

/-- The encode of a whole program writes the bytes, the outputs and the model's `procedure` (R102). -/
theorem run_of_encode_ok (lines : List (Kind × List Nat)) {s : State} {rest : List Action} {bytes : List Byte}
    (hh : s.halt = none) (ha : s.agenda = encodeActions lines ++ rest)
    (h : encodeProgram s.params lines = .ok bytes) :
    ∃ v e c q, core.run lines.length s = .next { s with
      agenda := rest, procedure := q, valueOut := v, err := e, cause := c, encoded := s.encoded ++ bytes } := by
  induction lines generalizing s bytes with
  | nil =>
    obtain rfl : bytes = [] := (Except.ok.inj h).symm
    obtain rfl : s.agenda = rest := ha
    exact ⟨_, _, _, _, by rw [List.append_nil]; exact run_zero s⟩
  | cons l lines ih =>
    obtain ⟨first, more, hfirst, hmore, rfl⟩ := encodeProgram_cons_eq_ok h
    obtain ⟨q, hstep⟩ := step_of_encode_ok hh ha hfirst
    rw [List.length_cons, run_step _ hstep, ← List.append_assoc]
    exact ih hh rfl hmore

theorem run_of_encode_error (lines : List (Kind × List Nat)) {s : State} {rest : List Action} {e : RecordError}
    (hh : s.halt = none) (ha : s.agenda = encodeActions lines ++ rest)
    (h : encodeProgram s.params lines = .error e) :
    ∃ t, core.run lines.length s = .next t ∧ t.halt = some (.record e) ∧ t.encoded = [] := by
  induction lines generalizing s with
  | nil => exact absurd h (by simp [encodeProgram])
  | cons l lines ih =>
    cases hr : encodeRecord s.params l.1 l.2 with
    | error e' =>
      rw [encodeProgram_cons_of_error hr] at h
      obtain rfl := Except.error.inj h
      obtain ⟨t, hstep, hhalt, hencoded⟩ := step_of_encode_error hh ha hr
      have hended : t.ended := .inl (by simp [hhalt])
      exact ⟨t, by rw [List.length_cons, run_step _ hstep, endedRunStays t _ hended], hhalt, hencoded⟩
    | ok first =>
      rw [encodeProgram_cons_of_ok hr] at h
      cases hp : encodeProgram s.params lines with
      | ok more => rw [hp] at h; exact absurd h (by simp [Except.map])
      | error e' =>
        rw [hp] at h
        obtain rfl := Except.error.inj h
        obtain ⟨q, hstep⟩ := step_of_encode_ok hh ha hr
        rw [List.length_cons, run_step _ hstep]
        exact ih hh rfl hp

/-- Settles O36: the two ways in which `EncodeProgram` can end. -/
theorem machineEncodesPrograms : Obligations.MachineEncodesPrograms := by
  intro lines s rest hh ha
  refine ⟨fun bytes h => ?_, fun e h => run_of_encode_error lines hh ha h⟩
  obtain ⟨v, e, c, q, hrun⟩ := run_of_encode_ok lines hh ha h
  exact ⟨_, hrun, hh, rfl, rfl, rfl, rfl, rfl, rfl⟩

/-! ## Walks -/

/-- A walk that goes on until it is Done puts itself back on the agenda. -/
theorem walkAgain_walk (rest : List Action) : walkAgain .walk rest (.walk :: rest) := .inr ⟨rfl, rfl⟩

theorem run_one {s t : State} (h : step s = .next t) : core.run 1 s = .next t := run_step 0 h

/-- A turn of such a walk at a record, by the updates of the state it is made of. -/
theorem step_of_walk_on {s : State} {rest : List Action} {i : Instr} {m : Kind} {ops : List Nat} (hh : s.halt = none)
    (ha : s.agenda = .walk :: rest) (hp : s.p < s.len) (hd : decodeRecord s.params s.mem s.p s.len = .ok i)
    (hi : i.recordOps = some (m, ops)) :
    step s = .next (((s.withAgenda (.walk :: rest)).withProcedure .decoding).takeRecord m ops) :=
  step_of_walk_take hh ha (walkAgain_walk rest) hp hd hi

/-- Every turn that does not end the walk passes at least 6 bytes, so the bytes left bound the turns (R112). -/
theorem walk_ends {s : State} {rest : List Action} (hP : s.params.legal) (hp : s.p ≤ s.len) (hh : s.halt = none)
    (ha : s.agenda = .walk :: rest) :
    ∃ n t, n ≤ (s.len - s.p) / 6 + 1 ∧ core.run n s = .next t ∧
      (t.halt = none ∧ t.walk = .done ∧ t.p = t.len ∧ t.agenda = rest ∨ ∃ e, t.halt = some (.record e)) := by
  induction hd : s.len - s.p using Nat.strong_induction_on generalizing s with
  | _ left ih =>
    subst hd
    rcases hp.eq_or_lt with hend | hlt
    · exact ⟨1, _, by omega, run_one (step_of_walk_done hh ha (walkAgain_walk rest) hend),
        .inl ⟨hh, rfl, hend, rfl⟩⟩
    · cases hdec : decodeRecord s.params s.mem s.p s.len with
      | error e =>
        exact ⟨1, _, by omega, run_one (step_of_walk_error hh ha (walkAgain_walk rest) hlt hdec), .inr ⟨e, rfl⟩⟩
      | ok i =>
        obtain ⟨m, -, hin, -, hi⟩ := decodeRecord_eq_ok hdec
        have h6 := six_le_len hP m
        have hstep := step_of_walk_on hh ha hlt hdec hi
        obtain ⟨n, t, hn, hrun, ht⟩ :=
          ih (s.len - (s.p + (layout s.params m).len)) (by omega)
            (s := ((s.withAgenda (.walk :: rest)).withProcedure .decoding).takeRecord m _) hP hin hh rfl rfl
        exact ⟨n + 1, t, by omega, (run_step n hstep).trans hrun, ht⟩

/-- Settles O43: of the invariant it takes the parameters and the pointer. -/
theorem walkTerminates : Obligations.WalkTerminates :=
  fun _ _ hs hh ha => walk_ends hs.params hs.pointer hh ha

/-- The walk over an encoded program, from the record after `before` on: one turn for each record, and the loop test at the
end (R105, R112, R113). -/
theorem run_of_walk_encoded (lines : List (Kind × List Nat)) {s : State} {rest : List Action}
    {before bytes : List Byte} (hP : s.params.legal) (hh : s.halt = none) (ha : s.agenda = .walk :: rest)
    (h : encodeProgram s.params lines = .ok bytes) (hmem : s.mem = Memory.ofBytes (before ++ bytes))
    (hlen : s.len = (before ++ bytes).length) (hp : s.p = before.length) :
    ∃ t, core.run (lines.length + 1) s = .next t ∧ t.halt = none ∧ t.walk = .done ∧ t.agenda = rest ∧
      t.p = s.len ∧ t.len = s.len ∧
      ∃ rs, t.records = s.records ++ rs ∧ rs.map (fun r => (r.kind, r.ops)) = lines ∧
        contiguous s.params s.p rs s.len := by
  induction lines generalizing s before bytes with
  | nil =>
    obtain rfl : bytes = [] := (Except.ok.inj h).symm
    have hend : s.p = s.len := by rw [hp, hlen, List.append_nil]
    exact ⟨_, run_one (step_of_walk_done hh ha (walkAgain_walk rest) hend), hh, rfl, rfl, hend, rfl, [],
      (List.append_nil _).symm, rfl, hend⟩
  | cons l lines ih =>
    obtain ⟨first, more, hfirst, hmore, rfl⟩ := encodeProgram_cons_eq_ok h
    obtain ⟨i, hdec, hi, hfirstLen⟩ := decodeRecord_of_encodeRecord hP hfirst before more
    have h6 := six_le_len hP l.1
    rw [← List.append_assoc] at hmem hlen
    rw [← hmem, ← hlen, ← hp] at hdec
    have hlt : s.p < s.len := by
      rw [hp, hlen, List.length_append, List.length_append]
      omega
    have hstep := step_of_walk_on hh ha hlt hdec hi
    obtain ⟨t, hrun, hhalt, hwalk, hagenda, hptr, hlen', rs, hrs, hmap, hcont⟩ :=
      ih (s := ((s.withAgenda (.walk :: rest)).withProcedure .decoding).takeRecord l.1 l.2) (before := before ++ first)
        hP hh rfl hmore hmem hlen (by rw [List.length_append, ← hp, hfirstLen]; rfl)
    refine ⟨t, (run_step _ hstep).trans hrun, hhalt, hwalk, hagenda, hptr, hlen', _ :: rs,
      hrs.trans (List.append_assoc ..), ?_, rfl, hcont⟩
    rw [List.map_cons, hmap]

/-! ## There and back -/

/-- The encoded program presented as the stream and walked from byte 0. -/
theorem run_of_present_and_walk {lines : List (Kind × List Nat)} {s : State} {rest : List Action}
    (hP : s.params.legal) (h : encodeProgram s.params lines = .ok s.encoded) (hh : s.halt = none)
    (ha : s.agenda = .presentEncoded :: .startWalk :: .walk :: rest) :
    ∃ t, core.run (lines.length + 1 + 1 + 1) s = .next t ∧ t.halt = none ∧ t.walk = .done ∧ t.agenda = rest ∧
      t.p = s.encoded.length ∧ t.len = s.encoded.length ∧
      t.records.map (fun r => (r.kind, r.ops)) = lines ∧ contiguous s.params 0 t.records s.encoded.length := by
  have hpresent : step s = .next ((s.withAgenda (.startWalk :: .walk :: rest)).presentStream
      (.ofBytes s.encoded) s.encoded.length) := step_of_action hh ha
  have hstart := walkStartsAtZero
    ((s.withAgenda (.startWalk :: .walk :: rest)).presentStream (.ofBytes s.encoded) s.encoded.length)
    (.walk :: rest) hh rfl
  obtain ⟨t, hrun, hhalt, hwalk, hagenda, hp, hlen, rs, hrecords, hmap, hcont⟩ :=
    run_of_walk_encoded lines (before := []) (bytes := s.encoded) (rest := rest)
      (s := (((s.withAgenda (.startWalk :: .walk :: rest)).presentStream (.ofBytes s.encoded)
        s.encoded.length).withAgenda (.walk :: rest)).startWalk) hP hh rfl h rfl rfl rfl
  obtain rfl : t.records = rs := hrecords
  exact ⟨t, ((run_step _ hpresent).trans (run_step _ hstart)).trans hrun, hhalt, hwalk, hagenda, hp, hlen, hmap,
    hcont⟩

/-- Settles O44: start, one step per record, present, start, one step per record, and the loop test at the end. -/
theorem encodedProgramWalksBack : Obligations.EncodedProgramWalksBack := by
  intro lines bytes s rest hP h hh ha
  have hcount : 2 * lines.length + 4 = lines.length + (lines.length + 1 + 1 + 1) + 1 := by omega
  have hstart : step s = .next ((s.withAgenda (encodeActions lines ++
      .presentEncoded :: .startWalk :: .walk :: rest)).withEncoded []) := step_of_action hh ha
  obtain ⟨v, e, c, q, hencode⟩ := run_of_encode_ok lines (rest := .presentEncoded :: .startWalk :: .walk :: rest)
    (s := (s.withAgenda (encodeActions lines ++ .presentEncoded :: .startWalk :: .walk :: rest)).withEncoded [])
    hh rfl h
  rw [hcount, run_step _ hstart, run_add _ hencode]
  exact run_of_present_and_walk hP h hh rfl

end Sys2Proof.Machine
end

section
/-! The exceptions (60_exceptions.md): which check a command's report names and what the report leaves, and the errors of
the record procedures with their data, on their own and as the step that ends a run with them. -/

namespace Sys2Proof

/-! ## The checks of a command -/

/-- Everything the checks can answer and when, in the order of R128: the clauses exclude each other. -/
theorem check_cases (P : Params) {op : Nat} (hop : op < 4) (w o v L : Nat) :
    (check P op w o v L = .illegalOp ∧ op = 3) ∨
    (check P op w o v L = .width ∧ (op = 1 ∨ op = 2) ∧ P.maxW < w) ∨
    (check P op w o v L = .bounds ∧ (op = 1 ∨ op = 2) ∧ w ≤ P.maxW ∧ (P.streamCap < L ∨ 8 * L < o + w)) ∨
    (check P op w o v L = .value ∧ op = 1 ∧ w ≤ P.maxW ∧ L ≤ P.streamCap ∧ o + w ≤ 8 * L ∧ 2 ^ w ≤ v) ∨
    (check P op w o v L = .none ∧ (op = 0 ∨ w ≤ P.maxW ∧ L ≤ P.streamCap ∧ o + w ≤ 8 * L ∧
      (op = 1 ∧ v < 2 ^ w ∨ op = 2))) := by
  rcases (by omega : op = 0 ∨ op = 1 ∨ op = 2 ∨ op = 3) with rfl | rfl | rfl | rfl
  · simp [check_nop]
  · rw [check_pack]
    split_ifs <;> simp <;> omega
  · rw [check_unpack]
    split_ifs <;> simp <;> omega
  · simp [check_reserved]

/-- VALUE is the last check: a PACK whose value alone does not fit reports it (R126, R128). -/
theorem check_pack_eq_value {P : Params} {w o v L : Nat} (hw : w ≤ P.maxW) (hL : L ≤ P.streamCap)
    (hf : o + w ≤ 8 * L) (hv : 2 ^ w ≤ v) : check P 1 w o v L = .value := by
  rw [check_pack, if_neg (by omega), if_neg (by omega), if_pos hv]

/-! ## DecodeRecord -/

theorem ofTag_eq_none {t : Nat} (h : t = 0 ∨ t = 1 ∨ t = 4 ∨ t = 5) : Kind.ofTag t = none := by
  rcases h with rfl | rfl | rfl | rfl <;> rfl

/-- A known tag and its record's length are a row of R96's table. -/
theorem exists_kind_of_tag_len {P : Params} {t n : Nat}
    (h : t = 2 ∧ n = 6 ∨ t = 3 ∧ n = 7 ∨ t = 6 ∧ n = P.minRecordBytes ∨ t = 7 ∧ n = 8) :
    ∃ m, Kind.ofTag t = some m ∧ (layout P m).len = n := by
  rcases h with ⟨rfl, rfl⟩ | ⟨rfl, rfl⟩ | ⟨rfl, rfl⟩ | ⟨rfl, rfl⟩
  · exact ⟨.load, rfl, rfl⟩
  · exact ⟨.write, rfl, rfl⟩
  · exact ⟨.min, rfl, rfl⟩
  · exact ⟨.read, rfl, rfl⟩

theorem decodeRecord_of_unknown {P : Params} {S : Memory} {p L : Nat} (ht : Kind.ofTag (tagAt P S p) = none) :
    decodeRecord P S p L = .error (.unknownOpcodeTag p (tagAt P S p)) := by
  rw [decodeRecord, ht]

/-- Settles O40: a tag no kind has ends `DecodeRecord` before the length is looked at, and one of a kind whose record
reaches beyond the stream after it. -/
theorem decodeRecordReportsErrors : Obligations.DecodeRecordReportsErrors := by
  rintro P S p L t n - rfl
  refine ⟨fun ht => ⟨decodeRecord_of_unknown (ofTag_eq_none ht), rfl⟩, fun ht hL => ⟨?_, rfl⟩⟩
  obtain ⟨m, hm, rfl⟩ := exists_kind_of_tag_len ht
  exact decodeRecord_of_truncated hm hL

namespace Machine

/-! ## Commands -/

/-- Settles O6: a bundle runs its command, and a command whose check raises changes the report alone. -/
theorem errorReportLeavesStream : Obligations.ErrorReportLeavesStream := by
  intro b s h
  rw [exec_decodeCommand, State.runCommand_of_error h]

/-- Settles O5: the check of the reserved selector raises ILLEGAL_OP whatever the other inputs hold. -/
theorem reservedSelectorIsIllegal : Obligations.ReservedSelectorIsIllegal := by
  intro b s h
  have hc : check s.params b.op b.w b.o b.v s.len = .illegalOp := by rw [h, check_reserved]
  refine ⟨?_, rfl⟩
  rw [errorReportLeavesStream b s (by rw [hc]; decide), hc]

/-- Settles O7: the cause a command drives is its checks' answer, and each answer has its own clause. -/
theorem firstFailingCheckIsReported : Obligations.FirstFailingCheckIsReported := by
  intro b s
  refine ⟨_, exec_decodeCommand b s, ?_⟩
  rw [State.runCommand_cause, State.runCommand_err, errOf_eq_false]
  rcases check_cases s.params (bundle_op_lt b) b.w b.o b.v s.len with
    ⟨hc, h⟩ | ⟨hc, h⟩ | ⟨hc, h⟩ | ⟨hc, h⟩ | ⟨hc, h⟩ <;> rw [hc] <;> simp [Cause.code] <;> omega

/-! ## EncodeRecord -/

/-- The operands R132 expects, the tag not counted, are those R96's table gives widths for. -/
theorem widths_length_of_arity (P : Params) {m : Kind} {arity : Nat}
    (h : (m = .load ∨ m = .write) ∧ arity = 2 ∨ (m = .min ∨ m = .read) ∧ arity = 3) :
    (layout P m).widths.length = arity := by
  rcases h with ⟨rfl | rfl, rfl⟩ | ⟨rfl | rfl, rfl⟩ <;> rfl

/-- The count is looked at before any operand (42_record_layouts.md R97). -/
theorem encodeRecord_of_count {P : Params} {m : Kind} {ops : List Nat} (h : ops.length ≠ (layout P m).widths.length) :
    encodeRecord P m ops = .error (.operandCountMismatch m ops.length (layout P m).widths.length) := by
  rw [encodeRecord]
  exact if_pos h

theorem encodeRecord_of_first_bad {P : Params} (hP : P.legal) {m : Kind} {ops : List Nat} {k : Nat}
    (hl : ops.length = (layout P m).widths.length) (hk : k < ops.length)
    (hgood : ∀ j, j < k → ops.getD j 0 < 2 ^ (layout P m).width j)
    (hbad : 2 ^ (layout P m).width k ≤ ops.getD k 0) :
    encodeRecord P m ops = .error (.operandRange m (k + 1) (ops.getD k 0) ((layout P m).width k)) := by
  have hU := usedBits_le hP m
  rw [Layout.usedBits] at hU
  rw [encodeRecord]
  simp only [hl, ne_eq, not_true, if_false]
  rw [encodeFields_of_first_bad (len_le_streamCap hP m) _ _ hl (widths_le hP m) hU (hl ▸ hk) hgood hbad, Nat.add_comm 1]
  rfl

/-- A record's field always stands inside its buffer, so its PACK can report nothing but VALUE (R97, R133). -/
theorem check_field_eq_value {P : Params} (hP : P.legal) {m : Kind} {k v : Nat} (hk : k < (layout P m).widths.length)
    (hv : 2 ^ (layout P m).width k ≤ v) :
    check P 1 ((layout P m).width k) ((layout P m).offset k) v (layout P m).len = .value := by
  have hwidth : (layout P m).width k ∈ (layout P m).widths := by simp [Layout.width, hk]
  exact check_pack_eq_value (widths_le hP m _ hwidth) (len_le_streamCap hP m)
    ((field_le_usedBits P m hk).trans (usedBits_le hP m)) hv

/-- Settles O34: the count first, then the first operand that does not fit. -/
theorem encodeRecordReportsErrors : Obligations.EncodeRecordReportsErrors := by
  intro P m ops arity hP harity
  obtain rfl := widths_length_of_arity P harity
  refine ⟨fun hl => ⟨encodeRecord_of_count hl, rfl⟩, ?_⟩
  rintro hl k w hk rfl hgood hbad
  exact ⟨encodeRecord_of_first_bad hP hl (hl ▸ hk) hgood hbad, rfl, check_field_eq_value hP hk hbad⟩

/-! ## Steps that end an encode -/

/-- Operands that make no instruction are encoded as they are, and the procedure stays (log 8). -/
theorem step_of_encode_wrong_count {s : State} {m : Kind} {ops : List Nat} {rest : List Action} (hh : s.halt = none)
    (ha : s.agenda = .encode m ops :: rest) (hl : ops.length ≠ (layout s.params m).widths.length) :
    step s = .next ((s.withAgenda rest).encode m ops) := by
  rw [step_of_action hh ha, State.perform, State.encodeTurn, (ofOps_eq_none s.params).2 hl]

theorem step_of_encode_right_count {s : State} {m : Kind} {ops : List Nat} {rest : List Action} (hh : s.halt = none)
    (ha : s.agenda = .encode m ops :: rest) (hl : ops.length = (layout s.params m).widths.length) :
    step s = .next (((s.withAgenda rest).withProcedure .encoding).encode m ops) := by
  obtain ⟨i, hi⟩ := Option.ne_none_iff_exists'.1 fun hnone => (ofOps_eq_none s.params).1 hnone hl
  have hops := ofOps_eq_some.1 hi
  exact ((stepRunsTheRecord s _ rest i hh ha).2 m ops rfl hops).trans (exec_record hops _)

/-- Settles O32: `EncodeRecord` reports the count before any PACK, so the outputs stay. -/
theorem wrongOperandCountIsReported : Obligations.WrongOperandCountIsReported := by
  intro s m ops rest expected hh ha harity hl
  obtain rfl := widths_length_of_arity s.params harity
  refine ⟨?_, rfl⟩
  rw [step_of_encode_wrong_count hh ha hl,
    State.encode_of_error (s := s.withAgenda rest) (encodeRecord_of_count hl)]
  rfl

/-- Settles O33: `EncodeRecord` reports the operand, and the outputs are those of its PACK. -/
theorem firstOperandOutOfRangeIsReported : Obligations.FirstOperandOutOfRangeIsReported := by
  intro s m ops rest k hP hh ha hl hk hgood hbad
  refine ⟨?_, rfl⟩
  rw [step_of_encode_right_count hh ha hl,
    State.encode_of_error (s := (s.withAgenda rest).withProcedure .encoding)
      (encodeRecord_of_first_bad hP hl hk hgood hbad)]
  rfl

/-! ## Steps that end a walk -/

/-- Settles O38: the turn of the walk ends with the error `DecodeRecord` reports. -/
theorem unknownTagEndsTheWalk : Obligations.UnknownTagEndsTheWalk := by
  rintro s a rest again tag hh ha hw hp rfl htag
  exact ⟨step_of_walk_error hh ha hw hp (decodeRecord_of_unknown (ofTag_eq_none htag)), rfl⟩

/-- Settles O39: the turn of the walk ends with the error `DecodeRecord` reports. -/
theorem truncatedRecordEndsTheWalk : Obligations.TruncatedRecordEndsTheWalk := by
  rintro s a rest again tag n hh ha hw hp rfl htag hL
  obtain ⟨m, hm, rfl⟩ := exists_kind_of_tag_len htag
  exact ⟨step_of_walk_error hh ha hw hp (decodeRecord_of_truncated hm hL), rfl⟩

end Machine
end Sys2Proof
end
